-- ==== Sys2Proof/Word.lean ====
section
/-! DEFINITION. The two bit-vector types of the machine: the 16-bit value every register, cell and
address holds (spec/00_scope.md R7, R10) and the 8-bit byte the host interface moves
(spec/10_state.md R37, R38). -/

namespace Sys2Proof

/-- A 16-bit value: a register, a memory cell or an address (R7 `XLEN`, R10). -/
abbrev Word := BitVec 16

/-- A byte of the host's input queue or output history (R37, R38). -/
abbrev Byte := BitVec 8

end Sys2Proof
end

