-- ==== Sys2Proof/Config.lean ====
section
/-! DEFINITION. The values the source document itself fixes (spec/00_scope.md R7), and the parameters it
does not give (R8): "Each is a named parameter of the model's configuration." The model takes them as an
argument, a value of type `Params`; their defaults stand in Sys2Proof/Machine/Params.lean. No behaviour
of this hardware has a free value. -/

namespace Sys2Proof.Config

/-- `MEMSIZE`: the number of memory cells (R7, R33). -/
def memSize : Nat := 65536

/-- `PC_START`: "the fixed entry address" (R7, R261). -/
def pcStart : Word := 0x3000#16

/-- The lowest defined trap vector, GETC (R7). -/
def vecGetc : BitVec 8 := 0x20#8

/-- The vector of OUT (R7). -/
def vecOut : BitVec 8 := 0x21#8

/-- The vector of PUTS (R7). -/
def vecPuts : BitVec 8 := 0x22#8

/-- The vector of IN (R7). -/
def vecIn : BitVec 8 := 0x23#8

/-- The vector of PUTSP (R7). -/
def vecPutsp : BitVec 8 := 0x24#8

/-- The highest defined trap vector, HALT (R7). -/
def vecHalt : BitVec 8 := 0x25#8

/-- The six vectors the trap subsystem dispatches on (R7, R190). -/
def definedVectors : List (BitVec 8) := [vecGetc, vecOut, vecPuts, vecIn, vecPutsp, vecHalt]

end Sys2Proof.Config

namespace Sys2Proof

/-- The field positions (R8): the lowest bit of each field. The widths are the document's (R82), and so
are the positions of the opcode, the mode bit, the JSR bit and the trap vector, which are no parameters. -/
structure Layout where
  /-- DR of ADD, AND, NOT, LD, LDI, LDR, LEA; 3 bits. -/
  dr : Nat
  /-- SR of ST, STI, STR; 3 bits. -/
  srStore : Nat
  /-- SR of NOT; 3 bits. -/
  srNot : Nat
  /-- SR1 of ADD and AND; 3 bits. -/
  sr1 : Nat
  /-- SR2 of ADD and AND; 3 bits. -/
  sr2 : Nat
  /-- BaseR of JMP, JSRR, LDR, STR; 3 bits. -/
  baseR : Nat
  /-- imm5 of ADD and AND; 5 bits. -/
  imm5 : Nat
  /-- offset6 of LDR and STR; 6 bits. -/
  off6 : Nat
  /-- PCoffset9 of BR, LD, LDI, LEA, ST, STI; 9 bits. -/
  off9 : Nat
  /-- PCoffset11 of JSR; 11 bits. -/
  off11 : Nat
  /-- nzp of BR; 3 bits. -/
  nzp : Nat
  deriving DecidableEq, Repr

/-- The parameters of R8, by the spec's names. -/
structure Params where
  /-- `OPC_BR` -/
  opcBr : BitVec 4
  /-- `OPC_ADD` -/
  opcAdd : BitVec 4
  /-- `OPC_LD` -/
  opcLd : BitVec 4
  /-- `OPC_ST` -/
  opcSt : BitVec 4
  /-- `OPC_JSR`: JSR and JSRR, told apart by bit 11 (R86) -/
  opcJsr : BitVec 4
  /-- `OPC_AND` -/
  opcAnd : BitVec 4
  /-- `OPC_LDR` -/
  opcLdr : BitVec 4
  /-- `OPC_STR` -/
  opcStr : BitVec 4
  /-- `OPC_RSV_A` -/
  opcRsvA : BitVec 4
  /-- `OPC_NOT` -/
  opcNot : BitVec 4
  /-- `OPC_LDI` -/
  opcLdi : BitVec 4
  /-- `OPC_STI` -/
  opcSti : BitVec 4
  /-- `OPC_JMP` -/
  opcJmp : BitVec 4
  /-- `OPC_RSV_B` -/
  opcRsvB : BitVec 4
  /-- `OPC_LEA` -/
  opcLea : BitVec 4
  /-- `OPC_TRAP` -/
  opcTrap : BitVec 4
  /-- The field positions. -/
  lay : Layout
  /-- `FL_POS`, as `cond` holds it (R26). -/
  flPos : Word
  /-- `FL_ZRO`, as `cond` holds it (R26). -/
  flZro : Word
  /-- `FL_NEG`, as `cond` holds it (R26). -/
  flNeg : Word
  /-- `KBSR_ADDR`: the keyboard status cell (R34). -/
  kbsrAddr : Word
  /-- `KBDR_ADDR`: the keyboard data cell (R35). -/
  kbdrAddr : Word
  /-- `IN_PROMPT`: what IN writes before it reads (R198). -/
  inPrompt : List Byte
  /-- `HALT_NOTICE`: what HALT writes (R202). -/
  haltNotice : List Byte
  /-- `COND_RESET`: `cond` at reset (R29, R40). -/
  condReset : Word
  deriving DecidableEq, Repr

/-- The sixteen opcode numbers, in R8's order. -/
def Params.opcodes (p : Params) : List (BitVec 4) :=
  [p.opcBr, p.opcAdd, p.opcLd, p.opcSt, p.opcJsr, p.opcAnd, p.opcLdr, p.opcStr, p.opcRsvA, p.opcNot,
   p.opcLdi, p.opcSti, p.opcJmp, p.opcRsvB, p.opcLea, p.opcTrap]

end Sys2Proof
end

