-- ==== Sys2Proof/Machine/Params.lean ====
section
/-! DEFINITION. The defaults of the parameters of spec/00_scope.md R8. The spec marks every one of these
values as general knowledge or as its own reading (UNVERIFIED, log entries 1 to 6, unsafe). They stand
here, under Machine/, so that a value can be mended. -/

namespace Sys2Proof

/-- The default field positions (R82; log entry 2). -/
def Layout.default : Layout where
  dr := 9
  srStore := 9
  srNot := 6
  sr1 := 6
  sr2 := 0
  baseR := 6
  imm5 := 0
  off6 := 0
  off9 := 0
  off11 := 0
  nzp := 9

/-- The bytes of "Enter a character: " (R8, R198; log entry 5). -/
def defaultPrompt : List Byte :=
  [0x45#8, 0x6E#8, 0x74#8, 0x65#8, 0x72#8, 0x20#8, 0x61#8, 0x20#8, 0x63#8, 0x68#8, 0x61#8, 0x72#8,
   0x61#8, 0x63#8, 0x74#8, 0x65#8, 0x72#8, 0x3A#8, 0x20#8]

/-- The bytes of "HALT" and a line feed (R8, R202; log entry 5). -/
def defaultNotice : List Byte := [0x48#8, 0x41#8, 0x4C#8, 0x54#8, 0x0A#8]

/-- R8's defaults: the opcode numbers (R85; log entry 1), the field positions (log entry 2), the flags
(R26; log entry 3), the device addresses (R34, R35; log entry 4), the texts (log entry 5) and `cond` at
reset (R29; log entry 6). -/
def Params.default : Params where
  opcBr := 0#4
  opcAdd := 1#4
  opcLd := 2#4
  opcSt := 3#4
  opcJsr := 4#4
  opcAnd := 5#4
  opcLdr := 6#4
  opcStr := 7#4
  opcRsvA := 8#4
  opcNot := 9#4
  opcLdi := 10#4
  opcSti := 11#4
  opcJmp := 12#4
  opcRsvB := 13#4
  opcLea := 14#4
  opcTrap := 15#4
  lay := Layout.default
  flPos := 0x0001#16
  flZro := 0x0002#16
  flNeg := 0x0004#16
  kbsrAddr := 0xFE00#16
  kbdrAddr := 0xFE02#16
  inPrompt := defaultPrompt
  haltNotice := defaultNotice
  condReset := 0x0000#16

/-- What a poll that finds a byte leaves in the status cell (R51, R52 point 1; no parameter). -/
def kbsrReady : Word := 0x8000#16

end Sys2Proof
end

