-- ==== Sys2Proof/Syntax.lean ====
section
/-! DEFINITION. The instructions: one constructor per row of spec/opcode_table.json. Bits the decoder
does not read (spec/30_encoding.md R87) are no part of an instruction; the reserved opcodes keep their
low twelve bits because the fault record holds the whole word (spec/60_exceptions.md R231). -/

namespace Sys2Proof

/-- The eight general registers (R20). A 3-bit field selects exactly one of them. -/
inductive Reg where
  | r0 | r1 | r2 | r3 | r4 | r5 | r6 | r7
  deriving DecidableEq, Repr

/-- The instruction set. Immediates are the raw fields; the machine sign-extends them (R84). -/
inductive Instr where
  /-- ADD, register form (R110). -/
  | addReg (dr sr1 sr2 : Reg)
  /-- ADD, immediate form (R112). -/
  | addImm (dr sr1 : Reg) (imm5 : BitVec 5)
  /-- AND, register form (R114). -/
  | andReg (dr sr1 sr2 : Reg)
  /-- AND, immediate form (R116). -/
  | andImm (dr sr1 : Reg) (imm5 : BitVec 5)
  /-- NOT (R118). -/
  | not (dr sr : Reg)
  /-- BR; `nzp` holds n in bit 2, z in bit 1, p in bit 0 (R82, R130). -/
  | br (nzp : BitVec 3) (off9 : BitVec 9)
  /-- JMP (R132). -/
  | jmp (base : Reg)
  /-- JSR (R134). -/
  | jsr (off11 : BitVec 11)
  /-- JSRR (R136). -/
  | jsrr (base : Reg)
  /-- LD (R150). -/
  | ld (dr : Reg) (off9 : BitVec 9)
  /-- LDI (R152). -/
  | ldi (dr : Reg) (off9 : BitVec 9)
  /-- LDR (R154). -/
  | ldr (dr base : Reg) (off6 : BitVec 6)
  /-- LEA (R156). -/
  | lea (dr : Reg) (off9 : BitVec 9)
  /-- ST (R170). -/
  | st (sr : Reg) (off9 : BitVec 9)
  /-- STI (R172). -/
  | sti (sr : Reg) (off9 : BitVec 9)
  /-- STR (R174). -/
  | str (sr base : Reg) (off6 : BitVec 6)
  /-- TRAP x20, GETC (R192). -/
  | trapGetc
  /-- TRAP x21, OUT (R194). -/
  | trapOut
  /-- TRAP x22, PUTS (R196). -/
  | trapPuts
  /-- TRAP x23, IN (R198). -/
  | trapIn
  /-- TRAP x24, PUTSP (R200). -/
  | trapPutsp
  /-- TRAP x25, HALT (R202). -/
  | trapHalt
  /-- TRAP with any other vector (R204). -/
  | trapUnknown (vec : BitVec 8)
  /-- The reserved opcode `OPC_RSV_A` with its low twelve bits (R220). -/
  | reservedA (low : BitVec 12)
  /-- The reserved opcode `OPC_RSV_B` with its low twelve bits (R221). -/
  | reservedB (low : BitVec 12)
  deriving DecidableEq, Repr

end Sys2Proof
end

