-- ==== Sys2Proof/WellFormed.lean ====
section
/-! DEFINITION. When an instruction is well formed. Every value of every register and immediate field is
legal (spec/10_state.md R20, spec/30_encoding.md R84), so the one check is that an unknown trap vector is
none of the six defined ones (spec/30_encoding.md R88: each word selects exactly one row). -/

namespace Sys2Proof

/-- The check: TRAP's fallback row stands only for vectors outside the six defined ones (R88, R204). -/
def Instr.wellFormed : Instr → Bool
  | .trapUnknown vec => !(Config.definedVectors.contains vec)
  | .addReg _ _ _ | .addImm _ _ _ | .andReg _ _ _ | .andImm _ _ _ | .not _ _ => true
  | .br _ _ | .jmp _ | .jsr _ | .jsrr _ => true
  | .ld _ _ | .ldi _ _ | .ldr _ _ _ | .lea _ _ => true
  | .st _ _ | .sti _ _ | .str _ _ _ => true
  | .trapGetc | .trapOut | .trapPuts | .trapIn | .trapPutsp | .trapHalt => true
  | .reservedA _ | .reservedB _ => true

end Sys2Proof
end

