-- ==== Sys2Proof/Decode.lean ====
section
/-! DEFINITION. The fields and formats, the decoder and the encoder (spec/30_encoding.md), each taking the
parameters of spec/00_scope.md R8 as its argument `p`. Decoding is total: every 16-bit word selects
exactly one instruction and none is rejected here (R88); what can fail is execution (R89). -/

namespace Sys2Proof

/-! The register a 3-bit field selects, and back (R20, R84: "unsigned indices 0 .. 7"). -/

/-- The register with index `b`. -/
def Reg.ofBits (b : BitVec 3) : Reg :=
  match b.toNat with
  | 0 => .r0
  | 1 => .r1
  | 2 => .r2
  | 3 => .r3
  | 4 => .r4
  | 5 => .r5
  | 6 => .r6
  | _ => .r7

/-- The index of a register. -/
def Reg.toBits : Reg → BitVec 3
  | .r0 => 0#3
  | .r1 => 1#3
  | .r2 => 2#3
  | .r3 => 3#3
  | .r4 => 4#3
  | .r5 => 5#3
  | .r6 => 6#3
  | .r7 => 7#3

/-! ### Fields -/

/-- `instr[lo+n-1:lo]` (R9). -/
def fieldAt (lo n : Nat) (w : Word) : BitVec n := w.extractLsb' lo n

/-- The register a field names. -/
def regAt (lo : Nat) (w : Word) : Reg := Reg.ofBits (fieldAt lo 3 w)

/-! The fields whose position the document gives (R82): no parameter. -/

/-- The opcode, bits 15:12 (R81). -/
def fieldOpcode (w : Word) : BitVec 4 := fieldAt 12 4 w
/-- The mode bit 5 of ADD and AND: set for the immediate form (R82). -/
def fieldMode (w : Word) : BitVec 1 := fieldAt 5 1 w
/-- Bit 11 of the JSR opcode: set for JSR, clear for JSRR (R82). -/
def fieldJsr (w : Word) : BitVec 1 := fieldAt 11 1 w
/-- trapvect8, bits 7:0 (R82). -/
def fieldVec (w : Word) : BitVec 8 := fieldAt 0 8 w
/-- The low twelve bits, recorded for a reserved opcode (R231). -/
def fieldLow12 (w : Word) : BitVec 12 := fieldAt 0 12 w

/-! ### The decoder -/

/-- Second-level decoding of TRAP on the vector (R86, R190). -/
def decodeTrap (vec : BitVec 8) : Instr :=
  if vec = Config.vecGetc then .trapGetc
  else if vec = Config.vecOut then .trapOut
  else if vec = Config.vecPuts then .trapPuts
  else if vec = Config.vecIn then .trapIn
  else if vec = Config.vecPutsp then .trapPutsp
  else if vec = Config.vecHalt then .trapHalt
  else .trapUnknown vec

/-- The decoder, a function of the parameters and the sixteen bits alone (R81, R85, R86). The last of the
sixteen opcode numbers is TRAP's. -/
def decode (p : Params) (w : Word) : Instr :=
  let l := p.lay
  let op := fieldOpcode w
  if op = p.opcBr then .br (fieldAt l.nzp 3 w) (fieldAt l.off9 9 w)
  else if op = p.opcAdd then
    if fieldMode w = 1#1 then .addImm (regAt l.dr w) (regAt l.sr1 w) (fieldAt l.imm5 5 w)
    else .addReg (regAt l.dr w) (regAt l.sr1 w) (regAt l.sr2 w)
  else if op = p.opcLd then .ld (regAt l.dr w) (fieldAt l.off9 9 w)
  else if op = p.opcSt then .st (regAt l.srStore w) (fieldAt l.off9 9 w)
  else if op = p.opcJsr then
    if fieldJsr w = 1#1 then .jsr (fieldAt l.off11 11 w) else .jsrr (regAt l.baseR w)
  else if op = p.opcAnd then
    if fieldMode w = 1#1 then .andImm (regAt l.dr w) (regAt l.sr1 w) (fieldAt l.imm5 5 w)
    else .andReg (regAt l.dr w) (regAt l.sr1 w) (regAt l.sr2 w)
  else if op = p.opcLdr then .ldr (regAt l.dr w) (regAt l.baseR w) (fieldAt l.off6 6 w)
  else if op = p.opcStr then .str (regAt l.srStore w) (regAt l.baseR w) (fieldAt l.off6 6 w)
  else if op = p.opcRsvA then .reservedA (fieldLow12 w)
  else if op = p.opcNot then .not (regAt l.dr w) (regAt l.srNot w)
  else if op = p.opcLdi then .ldi (regAt l.dr w) (fieldAt l.off9 9 w)
  else if op = p.opcSti then .sti (regAt l.srStore w) (fieldAt l.off9 9 w)
  else if op = p.opcJmp then .jmp (regAt l.baseR w)
  else if op = p.opcRsvB then .reservedB (fieldLow12 w)
  else if op = p.opcLea then .lea (regAt l.dr w) (fieldAt l.off9 9 w)
  else decodeTrap (fieldVec w)

/-- The decoder, with the default parameters, on a word numbered as spec/opcode_table.json numbers it. An
instruction is one 16-bit word (R80): bits at and above `nbits` are 0, and more than sixteen bits are no
instruction (log entry 18). -/
def decodeTableWord (nbits w : Nat) : Option Instr :=
  if nbits ≤ 16 then some (decode Params.default (BitVec.ofNat 16 (w % 2 ^ nbits))) else none

/-! ### The encoder

An instruction's word is given by the fields its row reads, one format of R83 at a time. -/

/-- A field of an instruction word: its lowest bit, its width and its content. -/
structure Field where
  lo : Nat
  width : Nat
  bits : BitVec width

/-- The field's content at its place in the word. -/
def Field.placed (f : Field) : Word := f.bits.setWidth 16 <<< f.lo

/-- The word made of some fields. A bit of no field is 0 (R87; DESIGN CHOICE, log entry 9, safe). -/
def pack : List Field → Word
  | [] => 0#16
  | f :: fs => f.placed ||| pack fs

/-- The bits of a word that some fields take up. -/
def spanned : List Field → Word
  | [] => 0#16
  | f :: fs => Field.placed ⟨f.lo, f.width, BitVec.allOnes f.width⟩ ||| spanned fs

/-- A register field. -/
def regField (lo : Nat) (r : Reg) : Field := ⟨lo, 3, r.toBits⟩
/-- The opcode field (R81). -/
def opField (op : BitVec 4) : Field := ⟨12, 4, op⟩

/-- Format RRR: ADD and AND, register form (R83). -/
def formatRRR (l : Layout) (op : BitVec 4) (d s t : Reg) : List Field :=
  [opField op, regField l.dr d, regField l.sr1 s, ⟨5, 1, 0#1⟩, regField l.sr2 t]
/-- Format RRI: ADD and AND, immediate form (R83). -/
def formatRRI (l : Layout) (op : BitVec 4) (d s : Reg) (imm : BitVec 5) : List Field :=
  [opField op, regField l.dr d, regField l.sr1 s, ⟨5, 1, 1#1⟩, ⟨l.imm5, 5, imm⟩]
/-- Format RR: NOT (R83). -/
def formatRR (l : Layout) (op : BitVec 4) (d s : Reg) : List Field :=
  [opField op, regField l.dr d, regField l.srNot s]
/-- Format BR (R83). -/
def formatBR (l : Layout) (op : BitVec 4) (nzp : BitVec 3) (off : BitVec 9) : List Field :=
  [opField op, ⟨l.nzp, 3, nzp⟩, ⟨l.off9, 9, off⟩]
/-- Format R: JMP (R83). -/
def formatR (l : Layout) (op : BitVec 4) (b : Reg) : List Field := [opField op, regField l.baseR b]
/-- Format J: JSR (R83). -/
def formatJ (l : Layout) (op : BitVec 4) (off : BitVec 11) : List Field :=
  [opField op, ⟨11, 1, 1#1⟩, ⟨l.off11, 11, off⟩]
/-- Format JR: JSRR (R83). -/
def formatJR (l : Layout) (op : BitVec 4) (b : Reg) : List Field :=
  [opField op, ⟨11, 1, 0#1⟩, regField l.baseR b]
/-- Format M9, the register at `at_`: LD, LDI, LEA with DR, ST, STI with SR (R83). -/
def formatM9 (l : Layout) (at_ : Nat) (op : BitVec 4) (r : Reg) (off : BitVec 9) : List Field :=
  [opField op, regField at_ r, ⟨l.off9, 9, off⟩]
/-- Format M6, the register at `at_`: LDR with DR, STR with SR (R83). -/
def formatM6 (l : Layout) (at_ : Nat) (op : BitVec 4) (r b : Reg) (off : BitVec 6) : List Field :=
  [opField op, regField at_ r, regField l.baseR b, ⟨l.off6, 6, off⟩]
/-- Format T: TRAP (R83). -/
def formatT (op : BitVec 4) (vec : BitVec 8) : List Field := [opField op, ⟨0, 8, vec⟩]
/-- Format X: a reserved opcode (R83). Its low bits count as read: the fault record holds them (R231). -/
def formatX (op : BitVec 4) (low : BitVec 12) : List Field := [opField op, ⟨0, 12, low⟩]

/-- The fields of an instruction's row (R83, R85). -/
def Instr.fields (p : Params) : Instr → List Field
  | .addReg dr sr1 sr2 => formatRRR p.lay p.opcAdd dr sr1 sr2
  | .addImm dr sr1 imm5 => formatRRI p.lay p.opcAdd dr sr1 imm5
  | .andReg dr sr1 sr2 => formatRRR p.lay p.opcAnd dr sr1 sr2
  | .andImm dr sr1 imm5 => formatRRI p.lay p.opcAnd dr sr1 imm5
  | .not dr sr => formatRR p.lay p.opcNot dr sr
  | .br nzp off9 => formatBR p.lay p.opcBr nzp off9
  | .jmp base => formatR p.lay p.opcJmp base
  | .jsr off11 => formatJ p.lay p.opcJsr off11
  | .jsrr base => formatJR p.lay p.opcJsr base
  | .ld dr off9 => formatM9 p.lay p.lay.dr p.opcLd dr off9
  | .ldi dr off9 => formatM9 p.lay p.lay.dr p.opcLdi dr off9
  | .ldr dr base off6 => formatM6 p.lay p.lay.dr p.opcLdr dr base off6
  | .lea dr off9 => formatM9 p.lay p.lay.dr p.opcLea dr off9
  | .st sr off9 => formatM9 p.lay p.lay.srStore p.opcSt sr off9
  | .sti sr off9 => formatM9 p.lay p.lay.srStore p.opcSti sr off9
  | .str sr base off6 => formatM6 p.lay p.lay.srStore p.opcStr sr base off6
  | .trapGetc => formatT p.opcTrap Config.vecGetc
  | .trapOut => formatT p.opcTrap Config.vecOut
  | .trapPuts => formatT p.opcTrap Config.vecPuts
  | .trapIn => formatT p.opcTrap Config.vecIn
  | .trapPutsp => formatT p.opcTrap Config.vecPutsp
  | .trapHalt => formatT p.opcTrap Config.vecHalt
  | .trapUnknown vec => formatT p.opcTrap vec
  | .reservedA low => formatX p.opcRsvA low
  | .reservedB low => formatX p.opcRsvB low

/-- The word of an instruction (R83, R85). -/
def encode (p : Params) (i : Instr) : Word := pack (i.fields p)

/-- The bits of its word that an instruction's row reads, `encoding` of spec/opcode_table.json without
the bits marked `-` (R83, R87). -/
def Instr.readBits (p : Params) (i : Instr) : Word := spanned (i.fields p)

/-! ### What the parameters must satisfy -/

/-- The fields lie inside the word and no two overlap. -/
abbrev FieldsFit (fs : List Field) : Prop :=
  (∀ f ∈ fs, f.lo + f.width ≤ 16) ∧
  fs.Pairwise (fun f g => f.lo + f.width ≤ g.lo ∨ g.lo + g.width ≤ f.lo)

/-- The fields of every format fit (DEDUCED as the condition on the positions from 92_eei_decisions.md D2,
"each field fits without overlap"; log entry 2, safe). Whether they do does not depend on what they
hold. -/
abbrev Layout.Ok (l : Layout) : Prop :=
  FieldsFit (formatRRR l 0#4 .r0 .r0 .r0) ∧ FieldsFit (formatRRI l 0#4 .r0 .r0 0#5) ∧
  FieldsFit (formatRR l 0#4 .r0 .r0) ∧ FieldsFit (formatBR l 0#4 0#3 0#9) ∧
  FieldsFit (formatR l 0#4 .r0) ∧ FieldsFit (formatJ l 0#4 0#11) ∧ FieldsFit (formatJR l 0#4 .r0) ∧
  FieldsFit (formatM9 l l.dr 0#4 .r0 0#9) ∧ FieldsFit (formatM9 l l.srStore 0#4 .r0 0#9) ∧
  FieldsFit (formatM6 l l.dr 0#4 .r0 .r0 0#6) ∧ FieldsFit (formatM6 l l.srStore 0#4 .r0 .r0 0#6)

/-- R8's conditions on the parameters: the opcode numbers are "sixteen distinct 4-bit numbers", the flags
"three distinct one-hot 3-bit values", `KBDR_ADDR` is "different from `KBSR_ADDR`", and the fields fit. -/
abbrev Params.Ok (p : Params) : Prop :=
  p.opcodes.Nodup ∧
  (p.flPos ∈ [1#16, 2#16, 4#16] ∧ p.flZro ∈ [1#16, 2#16, 4#16] ∧ p.flNeg ∈ [1#16, 2#16, 4#16]) ∧
  (p.flPos ≠ p.flZro ∧ p.flPos ≠ p.flNeg ∧ p.flZro ≠ p.flNeg) ∧
  p.kbdrAddr ≠ p.kbsrAddr ∧ p.lay.Ok

end Sys2Proof
end

