-- ==== Sys2Proof/Machine/State.lean ====
section
/-! DEFINITION. The state of the machine, plain data, holding everything spec/10_state.md names
(R20 to R40) and the host's side it observes (R36 to R39); the reasons a step can stop; the state
after reset (R40). -/

namespace Sys2Proof.Machine

/-- The eight general registers (R20). No register is hardwired. -/
structure Regs where
  r0 : Word
  r1 : Word
  r2 : Word
  r3 : Word
  r4 : Word
  r5 : Word
  r6 : Word
  r7 : Word
  deriving DecidableEq, Repr

/-- Memory: the cells that are not zero, as (address, value) pairs with addresses strictly rising. The
unit of addressing is the 16-bit cell (R33; log entry 7, safe). A cell not listed holds 0x0000, the
value reset gives every cell (R40). -/
abbrev Memory := List (Nat × Word)

/-- The canonical form: addresses strictly rising and inside the address space, no zero listed. -/
abbrev Memory.wf (m : Memory) : Prop :=
  m.Pairwise (fun x y => x.1 < y.1) ∧ ∀ c ∈ m, c.1 < Config.memSize ∧ c.2 ≠ 0#16

/-- A fatal condition with the information it records (R231). -/
inductive Fatal where
  /-- Code 1: a reserved opcode; the whole instruction word (R220, R221). -/
  | illegalOpcode (instr : Word)
  /-- Code 2: a TRAP whose vector is none of the six; the vector (R204). -/
  | unknownTrapVector (vec : BitVec 8)
  deriving DecidableEq, Repr

/-- The two traps that read a byte and can block (R208). -/
inductive InputTrap where
  /-- GETC (R192). -/
  | getc
  /-- IN, its prompt already written (R198). -/
  | promptedIn
  deriving DecidableEq, Repr

/-- The two traps that scan a string in memory. -/
inductive StringTrap where
  /-- PUTS (R196). -/
  | puts
  /-- PUTSP (R200). -/
  | putsp
  deriving DecidableEq, Repr

/-- Whether the core stands between two steps or inside one that has not completed (R208, R238, R274). -/
inductive Phase where
  /-- Between steps: the next thing the core does is a fetch. -/
  | boundary
  /-- Blocked in `InRead()` (R37, R208; log entry 10). -/
  | input (t : InputTrap)
  /-- In a string scan that has met no zero cell in a full round of memory; `next` is the cell it reads
  next (R196, R200, R274; log entry 11). -/
  | scan (t : StringTrap) (next : Word)
  deriving DecidableEq, Repr

/-- Whose turn it is, and what the host does in its turn (R239 to R241; log entry 12). -/
inductive Turn where
  /-- The core takes its turn. -/
  | core
  /-- The host appends a byte to the input queue (R39). -/
  | append (b : Byte)
  /-- The host appends bytes while the core's step is under way (R39: "at any time"): just before the
  core next looks at the queue, or as a turn of its own where the step does not look. -/
  | during (bs : List Byte)
  /-- The host asks the run to stop (R240). -/
  | stop
  deriving DecidableEq, Repr

/-- The state. -/
structure State where
  /-- The parameters of R8 this machine is built with. No turn changes them. They stand here because
  `exec` and `step` are functions of the state alone (log entry 20). -/
  params : Params
  /-- R0 to R7 (R20). -/
  regs : Regs
  /-- The program counter: the address of the next instruction to fetch (R23). -/
  pc : Word
  /-- The condition register (R26). -/
  cond : Word
  /-- The run flag (R30). -/
  running : Bool
  /-- The fault record (R31). -/
  fault : Option Fatal
  /-- The end record's third value: the host stopped the run (R239, R240). -/
  stopped : Bool
  /-- The 65536 cells (R33), the device cells among them (R34, R35). -/
  mem : Memory
  /-- The host's bytes that have arrived and are not consumed, next one first (R39). -/
  inq : List Byte
  /-- The output history, oldest byte first (R38). -/
  out : List Byte
  /-- Where the core stands (R238). -/
  phase : Phase
  /-- The model's own field: the turns to come, next one first; when it is empty the host does nothing
  more and every turn is the core's (log entry 12). -/
  plan : List Turn
  deriving DecidableEq, Repr

/-- Why the machine takes no step. -/
inductive Fault where
  /-- Raised by the core's turn when `running` is false or a fault is recorded: after the end of a run
  no step is taken (R24, R30, R234). How the run ended stands in the state: see `State.runEnd`. Safe:
  the model stops where the hardware has no step (log entry 8). -/
  | runEnded
  deriving DecidableEq, Repr

/-- Why the model gives an instruction no meaning. -/
inductive Refusal where
  /-- An instruction without a meaning yet, raised only by an arm of `exec`; no arm raises it. Safe: the
  model stops. -/
  | notModelled (mnemonic : String)
  deriving DecidableEq, Repr

/-- The three outcomes of a turn. -/
abbrev Outcome := Host.Outcome State Fault Refusal

/-- The machine with parameters `p` right after reset (R40, R260). `inq` and `plan` belong to the host and
are empty here by DESIGN CHOICE (log entries 12 and 13, unsafe); `State.boot` takes any. `phase` and
`stopped` are DEDUCED (log entries 10 and 16). -/
def State.resetWith (p : Params) : State where
  params := p
  regs := ⟨0#16, 0#16, 0#16, 0#16, 0#16, 0#16, 0#16, 0#16⟩
  pc := Config.pcStart
  cond := p.condReset
  running := true
  fault := none
  stopped := false
  mem := []
  inq := []
  out := []
  phase := .boundary
  plan := []

/-- The machine right after reset, with the parameters' defaults (R8, R40; log entries 1 to 6). -/
def State.reset : State := State.resetWith Params.default

end Sys2Proof.Machine
end

