-- ==== Sys2Proof/Machine/Ops.lean ====
section
/-! DEFINITION. The named operations over registers, memory and the host interface: the primitives of
spec/00_scope.md R13, and raising a fatal condition (spec/60_exceptions.md R232). There is no return from
a fatal condition (R234), so no operation returns from one. -/

namespace Sys2Proof.Machine

/-! ### Registers (R20 to R23) -/

/-- The value of a register. -/
def Regs.get (g : Regs) : Reg → Word
  | .r0 => g.r0
  | .r1 => g.r1
  | .r2 => g.r2
  | .r3 => g.r3
  | .r4 => g.r4
  | .r5 => g.r5
  | .r6 => g.r6
  | .r7 => g.r7

/-- The registers with one of them written. -/
def Regs.set (g : Regs) (r : Reg) (v : Word) : Regs :=
  match r with
  | .r0 => { g with r0 := v }
  | .r1 => { g with r1 := v }
  | .r2 => { g with r2 := v }
  | .r3 => { g with r3 := v }
  | .r4 => { g with r4 := v }
  | .r5 => { g with r5 := v }
  | .r6 => { g with r6 := v }
  | .r7 => { g with r7 := v }

/-- `x[i]` (R20). -/
def State.reg (s : State) (r : Reg) : Word := s.regs.get r

/-- `x[i] <- v`: "changes nothing else", `cond` included (R21). -/
def State.setReg (s : State) (r : Reg) (v : Word) : State := { s with regs := s.regs.set r v }

/-- `pc <- v` (R23). -/
def State.setPc (s : State) (v : Word) : State := { s with pc := v }

/-- `cond <- v` (R26). -/
def State.setCond (s : State) (v : Word) : State := { s with cond := v }

/-- The core is now at `p`: between steps, or inside one (R238). -/
def State.setPhase (s : State) (p : Phase) : State := { s with phase := p }

/-- The run flag is written (R30). -/
def State.setRunning (s : State) (b : Bool) : State := { s with running := b }

/-- The host's queue now holds `q` (R39). -/
def State.setInq (s : State) (q : List Byte) : State := { s with inq := q }

/-- The turns to come are now `p` (log entry 12). -/
def State.setPlan (s : State) (p : List Turn) : State := { s with plan := p }

/-! ### Cells (R33) -/

/-- What the list says of an address; 0x0000 where it says nothing (R40). -/
def Memory.readCell : Memory → Nat → Word
  | [], _ => 0#16
  | (b, u) :: m, a => if a = b then u else Memory.readCell m a

/-- Forget an address: it reads as 0x0000 from now on. -/
def Memory.forgetCell (m : Memory) (a : Nat) : Memory := m.filter (fun c => c.1 != a)

/-- List a value for an address, in the address's place. -/
def Memory.listCell : Memory → Nat → Word → Memory
  | [], a, v => [(a, v)]
  | (b, u) :: m, a, v =>
    if a < b then (a, v) :: (b, u) :: m
    else if a = b then (a, v) :: m
    else (b, u) :: Memory.listCell m a v

/-- Write a cell, keeping the canonical form: 0x0000 is never listed. -/
def Memory.writeCell (m : Memory) (a : Nat) (v : Word) : Memory :=
  if v = 0#16 then m.forgetCell a else m.listCell a v

/-- `Cell(a)`: the stored content, without side effect (R33). -/
def State.cell (s : State) (a : Word) : Word := s.mem.readCell a.toNat

/-- `Cell(a) <- v` (R33). -/
def State.setCell (s : State) (a v : Word) : State := { s with mem := s.mem.writeCell a.toNat v }

/-! ### The host's interface (R36 to R39) -/

/-- The bytes the host appends during the step, before this look at the queue, have arrived (R36, R39;
log entry 12). A turn `during` names them; with another turn, or none, to come, none arrive. -/
def arrive (s : State) : State :=
  match s.plan with
  | .during bs :: rest => { s with inq := s.inq ++ bs, plan := rest }
  | [] | .core :: _ | .append _ :: _ | .stop :: _ => s

/-- `InAvail()`: true exactly when a byte has arrived and is not consumed (R39). -/
def inAvail (s : State) : Bool := !s.inq.isEmpty

/-- `InRead()`: takes the head of the queue; none when no byte is there, and then the caller's step does
not complete (R37, R39). -/
def inRead (s : State) : Option (Byte × State) :=
  match s.inq with
  | [] => none
  | b :: rest => some (b, s.setInq rest)

/-- `OutWrite(b)` for each byte of a list, in order (R38). -/
def State.outWrite (s : State) (bs : List Byte) : State := { s with out := s.out ++ bs }

/-! ### The memory interface (R50 to R53) -/

/-- `zext_8`: a byte as a 16-bit value (R12). -/
def zext8 (b : Byte) : Word := b.setWidth 16

/-- The device side effect of reading the status cell: a byte that has arrived is consumed into the data
cell; with none the data cell stays as it is (R51, R52). -/
def poll (s : State) : State :=
  match inRead (arrive s) with
  | some (b, s1) => (s1.setCell s.params.kbsrAddr kbsrReady).setCell s.params.kbdrAddr (zext8 b)
  | none => (arrive s).setCell s.params.kbsrAddr 0#16

/-- What a `MemRead` of `a` leaves behind: a poll when `a` is the status cell, else nothing (R51). -/
def afterRead (a : Word) (s : State) : State := if a = s.params.kbsrAddr then poll s else s

/-- `MemRead(a, 16)`: the cell after the side effect, and the state it leaves (R51). -/
def memRead (a : Word) (s : State) : Word × State := ((afterRead a s).cell a, afterRead a s)

/-- `MemWrite(a, 16, v)`: a cell store, never a side effect (R53). -/
def memWrite (a v : Word) (s : State) : State := s.setCell a v

/-- The fetch: read at `pc` through the memory interface, then advance `pc` (R24). -/
def fetch (s : State) : Word × State :=
  let r := memRead s.pc s
  (r.1, r.2.setPc (s.pc + 1#16))

/-! ### Fatal conditions (R230 to R234) -/

/-- `raise Fatal(kind, info)`: the record is set, `running` is cleared "and nothing else" (R232). -/
def raiseFatal (f : Fatal) (s : State) : State := { s with fault := some f, running := false }

/-- The spec's number for a fatal condition (R231). -/
def Fatal.code : Fatal → Nat
  | .illegalOpcode _ => 1
  | .unknownTrapVector _ => 2

end Sys2Proof.Machine
end

