-- ==== Sys2Proof/Machine/Flags.lean ====
section
/-! DEFINITION. The condition flags (spec/10_state.md R26 to R29): the one flag computation of this
hardware. -/

namespace Sys2Proof.Machine

/-- The three-way classification of a 16-bit value (R27). -/
def classify (p : Params) (v : Word) : Word :=
  if v = 0#16 then p.flZro
  else if v.msb then p.flNeg
  else p.flPos

/-- `SetFlags(i)`: `cond` from the register's current value (R27). -/
def setFlags (r : Reg) (s : State) : State := s.setCond (classify s.params (s.reg r))

/-- Write a destination register, then derive the flags from it: the ending of every flag-writing
instruction (R28). -/
def writeResult (dr : Reg) (v : Word) (s : State) : State := setFlags dr (s.setReg dr v)

/-- Whether BR is taken: some flag of `cond` is selected by the nzp field (R130). -/
def branchTaken (nzp : BitVec 3) (cond : Word) : Bool := (nzp &&& cond.extractLsb' 0 3) != 0#3

end Sys2Proof.Machine
end

