-- ==== Sys2Proof/Machine/Operands.lean ====
section
/-! DEFINITION. The operand forms: sign extension (spec/00_scope.md R11) and the addressing modes
(spec/42_load.md R158, spec/43_store.md R176). In an instruction's meaning `pc` is the incremented one
(spec/10_state.md R24), so the addresses below are relative to the next instruction. -/

namespace Sys2Proof.Machine

/-- `sext_N` of an N-bit field: if its top bit is set, "OR in all higher bits through bit 15" (R11). -/
def sext {n : Nat} (f : BitVec n) : Word :=
  if f.msb then f.setWidth 16 ||| (0xFFFF#16 <<< n) else f.setWidth 16

/-- PC-relative: `pc + sext(offset)`, modulo 2^16 (R56, R84). -/
def pcRelative {n : Nat} (off : BitVec n) (s : State) : Word := s.pc + sext off

/-- Base plus offset: `x[BaseR] + sext_6(offset6)`, modulo 2^16 (R154, R174). -/
def basePlus (base : Reg) (off6 : BitVec 6) (s : State) : Word := s.reg base + sext off6

end Sys2Proof.Machine
end

