-- ==== Sys2Proof/Machine/Alu.lean ====
section
/-! DEFINITION. ADD, AND, NOT (spec/40_alu.md R110 to R121): the result goes to DR, then
`SetFlags(DR)`. Sources are read before DR is written (spec/10_state.md R21). -/

namespace Sys2Proof.Machine

/-- ADD, register form: `x[SR1] + x[SR2]`, modulo 2^16 (R110). -/
def execAddReg (dr sr1 sr2 : Reg) (s : State) : Outcome :=
  .next (writeResult dr (s.reg sr1 + s.reg sr2) s)

/-- ADD, immediate form: `x[SR1] + sext_5(imm5)`, modulo 2^16 (R112). -/
def execAddImm (dr sr1 : Reg) (imm5 : BitVec 5) (s : State) : Outcome :=
  .next (writeResult dr (s.reg sr1 + sext imm5) s)

/-- AND, register form (R114). -/
def execAndReg (dr sr1 sr2 : Reg) (s : State) : Outcome :=
  .next (writeResult dr (s.reg sr1 &&& s.reg sr2) s)

/-- AND, immediate form (R116). -/
def execAndImm (dr sr1 : Reg) (imm5 : BitVec 5) (s : State) : Outcome :=
  .next (writeResult dr (s.reg sr1 &&& sext imm5) s)

/-- NOT: the 16-bit complement (R118). -/
def execNot (dr sr : Reg) (s : State) : Outcome :=
  .next (writeResult dr (~~~ s.reg sr) s)

end Sys2Proof.Machine
end

