-- ==== Sys2Proof/Machine/Control.lean ====
section
/-! DEFINITION. BR, JMP, JSR, JSRR (spec/41_control.md R130 to R138). None writes `cond`. -/

namespace Sys2Proof.Machine

/-- BR: to `pc + sext_9(PCoffset9)` when taken, else on (R130, R131). -/
def execBr (nzp : BitVec 3) (off9 : BitVec 9) (s : State) : Outcome :=
  .next (if branchTaken nzp s.cond then s.setPc (pcRelative off9 s) else s)

/-- JMP: `pc <- x[BaseR]` (R132). -/
def execJmp (base : Reg) (s : State) : Outcome :=
  .next (s.setPc (s.reg base))

/-- JSR: R7 gets the incremented `pc`, then `pc + sext_11(PCoffset11)` (R134). -/
def execJsr (off11 : BitVec 11) (s : State) : Outcome :=
  let linked := s.setReg .r7 s.pc
  .next (linked.setPc (pcRelative off11 linked))

/-- JSRR: R7 gets the incremented `pc` first; BaseR is read after that, so `JSRR R7` falls through
(R136). -/
def execJsrr (base : Reg) (s : State) : Outcome :=
  let linked := s.setReg .r7 s.pc
  .next (linked.setPc (linked.reg base))

end Sys2Proof.Machine
end

