-- ==== Sys2Proof/Machine/Load.lean ====
section
/-! DEFINITION. LD, LDI, LDR, LEA (spec/42_load.md R150 to R158). Every read goes through the memory
interface and polls the keyboard when its address is the status cell (spec/20_memory.md R51). -/

namespace Sys2Proof.Machine

/-- Load a register from the cell at `a`, then `SetFlags(DR)`. -/
def loadFrom (dr : Reg) (a : Word) (s : State) : State :=
  let r := memRead a s
  writeResult dr r.1 r.2

/-- LD: the cell at `pc + sext_9(PCoffset9)` (R150). -/
def execLd (dr : Reg) (off9 : BitVec 9) (s : State) : Outcome :=
  .next (loadFrom dr (pcRelative off9 s) s)

/-- LDI: the pointer read, then the datum read at the pointer, each with its own side effect (R152, R55). -/
def execLdi (dr : Reg) (off9 : BitVec 9) (s : State) : Outcome :=
  let p := memRead (pcRelative off9 s) s
  .next (loadFrom dr p.1 p.2)

/-- LDR: the cell at `x[BaseR] + sext_6(offset6)` (R154). -/
def execLdr (dr base : Reg) (off6 : BitVec 6) (s : State) : Outcome :=
  .next (loadFrom dr (basePlus base off6 s) s)

/-- LEA: the address itself, with no memory access (R156). -/
def execLea (dr : Reg) (off9 : BitVec 9) (s : State) : Outcome :=
  .next (writeResult dr (pcRelative off9 s) s)

end Sys2Proof.Machine
end

