-- ==== Sys2Proof/Machine/Reserved.lean ====
section
/-! DEFINITION. The two reserved opcodes (spec/45_reserved.md R220 to R222): always fatal, recording the
whole word. -/

namespace Sys2Proof.Machine

/-- Reserved opcode A (R220). -/
def execReservedA (low : BitVec 12) (s : State) : Outcome :=
  .next (raiseFatal (.illegalOpcode (s.params.opcRsvA ++ low)) s)

/-- Reserved opcode B (R221). -/
def execReservedB (low : BitVec 12) (s : State) : Outcome :=
  .next (raiseFatal (.illegalOpcode (s.params.opcRsvB ++ low)) s)

end Sys2Proof.Machine
end

