-- ==== Sys2Proof/Machine/Store.lean ====
section
/-! DEFINITION. ST, STI, STR (spec/43_store.md R170 to R176). No store writes a register or `cond`. -/

namespace Sys2Proof.Machine

/-- ST: to the cell at `pc + sext_9(PCoffset9)` (R170). -/
def execSt (sr : Reg) (off9 : BitVec 9) (s : State) : Outcome :=
  .next (memWrite (pcRelative off9 s) (s.reg sr) s)

/-- STI: the pointer is read, with its side effect, then the cell it names is written (R172). -/
def execSti (sr : Reg) (off9 : BitVec 9) (s : State) : Outcome :=
  let p := memRead (pcRelative off9 s) s
  .next (memWrite p.1 (p.2.reg sr) p.2)

/-- STR: to the cell at `x[BaseR] + sext_6(offset6)` (R174). -/
def execStr (sr base : Reg) (off6 : BitVec 6) (s : State) : Outcome :=
  .next (memWrite (basePlus base off6 s) (s.reg sr) s)

end Sys2Proof.Machine
end

