-- ==== Sys2Proof/Machine/Trap.lean ====
section
/-! DEFINITION. TRAP and its six routines (spec/44_trap.md R190 to R208). The whole routine runs inside
the core; TRAP writes no link register and saves nothing (R190). -/

namespace Sys2Proof.Machine

/-- From `InRead()` to the end of GETC; blocked while no byte is there (R192, R208). -/
def finishGetc (s : State) : State :=
  match inRead (arrive s) with
  | some (c, s1) => (writeResult .r0 (zext8 c) s1).setPhase .boundary
  | none => (arrive s).setPhase (.input .getc)

/-- From `InRead()` to the end of IN, the echo included; blocked while no byte is there (R198, R208). -/
def finishIn (s : State) : State :=
  match inRead (arrive s) with
  | some (c, s1) => (writeResult .r0 (zext8 c) (s1.outWrite [c])).setPhase .boundary
  | none => (arrive s).setPhase (.input .promptedIn)

/-- What a string trap writes for one non-zero cell: PUTS the low byte (R196); PUTSP the low byte, then
the high byte when it is not zero (R200). -/
def StringTrap.bytesOf (t : StringTrap) (v : Word) : List Byte :=
  match t with
  | .puts => [v.extractLsb' 0 8]
  | .putsp =>
    if v.extractLsb' 8 8 = 0#8 then [v.extractLsb' 0 8] else [v.extractLsb' 0 8, v.extractLsb' 8 8]

/-- The scan of at most `fuel` cells from `a` on, wrapping at the top of memory: the bytes written, and
the next cell when no zero cell was met. It reads stored cells and never polls (R54, R196). -/
def scanCells (t : StringTrap) (m : Memory) : Nat → Word → List Byte × Option Word
  | 0, a => ([], some a)
  | fuel + 1, a =>
    if m.readCell a.toNat = 0#16 then ([], none)
    else
      let rest := scanCells t m fuel (a + 1#16)
      (t.bytesOf (m.readCell a.toNat) ++ rest.1, rest.2)

/-- One round of a string scan: to the terminator, or once round memory when there is none (R274). The
bytes of the round come into `out` together: no state stands between two of its `OutWrite`s (DESIGN
CHOICE, log entry 19, unsafe). -/
def runScan (t : StringTrap) (a : Word) (s : State) : State :=
  let r := scanCells t s.mem Config.memSize a
  match r.2 with
  | none => (s.outWrite r.1).setPhase .boundary
  | some next => (s.outWrite r.1).setPhase (.scan t next)

/-- GETC: a byte into R0, no echo, flags from R0 (R192). -/
def execGetc (s : State) : Outcome := .next (finishGetc s)

/-- OUT: the low byte of R0 (R194). -/
def execOut (s : State) : Outcome := .next (s.outWrite [(s.reg .r0).extractLsb' 0 8])

/-- PUTS: one character a cell from address R0 up to a zero cell (R196). -/
def execPuts (s : State) : Outcome := .next (runScan .puts (s.reg .r0) s)

/-- IN: the prompt, then a byte into R0 with echo, flags from R0 (R198). The prompt comes into `out` at
once, and with the echo where a byte is there (DESIGN CHOICE, log entry 19, unsafe). -/
def execIn (s : State) : Outcome := .next (finishIn (s.outWrite s.params.inPrompt))

/-- PUTSP: two characters a cell from address R0 up to a zero cell (R200). -/
def execPutsp (s : State) : Outcome := .next (runScan .putsp (s.reg .r0) s)

/-- HALT: the notice, then the run ends (R202), in one turn: no state stands between two bytes of the
notice or between the notice and the end (DESIGN CHOICE, log entry 19, unsafe). -/
def execHalt (s : State) : Outcome := .next ((s.outWrite s.params.haltNotice).setRunning false)

/-- A vector outside the six is fatal (R204). -/
def execUnknownVector (vec : BitVec 8) (s : State) : Outcome :=
  .next (raiseFatal (.unknownTrapVector vec) s)

end Sys2Proof.Machine
end

