-- ==== Sys2Proof/Machine/Cycle.lean ====
section
/-! DEFINITION. One turn of the machine: the core's step (spec/00_scope.md R14, spec/10_state.md R24) or a
turn of the host (spec/10_state.md R39, spec/60_exceptions.md R240), in the order `plan` gives
(log entry 12). -/

namespace Sys2Proof.Machine

/-- Fetch, decode, execute (R24). -/
def runInstr (s : State) : Outcome :=
  let f := fetch s
  exec (decode s.params f.1) f.2

/-- A step inside which the core still stands goes on from where it is; while no byte has arrived a
blocked trap makes no progress (R208, R274; log entries 10 and 11). -/
def continueStep (s : State) : Outcome :=
  match s.phase with
  | .boundary => runInstr s
  | .input .getc => .next (finishGetc s)
  | .input .promptedIn => .next (finishIn s)
  | .scan t a => .next (runScan t a s)

/-- The core's turn: taken only while `running` is true and no fault is recorded (R24, R30). -/
def coreTurn (s : State) : Outcome :=
  if s.running = true ∧ s.fault = none then continueStep s else .fault .runEnded

/-- The host appends a byte to the input queue, at any time (R39). -/
def hostAppend (b : Byte) (s : State) : State := s.setInq (s.inq ++ [b])

/-- The host clears `running`, between two steps of a run and only there; inside a step and after the end
of the run it can do nothing (R208, R240; log entry 16). -/
def hostStop (s : State) : State :=
  if s.running = true ∧ s.phase = .boundary then { s with running := false, stopped := true } else s

/-- One turn, the next of `plan`; the core's when `plan` is empty (log entry 12). -/
def takeTurn (s : State) : Outcome :=
  match s.plan with
  | [] => coreTurn s
  | .core :: rest => coreTurn (s.setPlan rest)
  | .append b :: rest => .next (hostAppend b (s.setPlan rest))
  | .during _ :: _ => .next (arrive s)
  | .stop :: rest => .next (hostStop (s.setPlan rest))

/-- A state whose very next turn fetches and runs the word `w`: the word stands in the cell at `pc`, the
run is on, the core stands between steps and the next turn is the core's. A stored word at the status
cell is never fetched (R271), so a `pc` there is moved to the cell after it (log entry 14). -/
def placeInstr (w : Word) (s : State) : State :=
  let at_ := if s.pc = s.params.kbsrAddr then s.pc + 1#16 else s.pc
  { s.setCell at_ w with
    pc := at_, running := true, fault := none, stopped := false, phase := .boundary, plan := [] }

end Sys2Proof.Machine
end

