-- ==== Sys2Proof/Machine/Step.lean ====
section
/-! DEFINITION. The step of the machine, and the placing of an instruction where it fetches. -/

namespace Sys2Proof.Machine

/-- One transition: the next turn of the core or of the host (R14, R24; log entry 12). -/
def step (s : State) : Host.Outcome State Fault Refusal := takeTurn s

/-- `s` with the instruction whose bits are `w`, numbered as spec/opcode_table.json numbers them, stored
where `step` fetches next (R24, R80; log entries 14 and 18). -/
def State.withFetchWord (s : State) (nbits w : Nat) : State :=
  placeInstr (BitVec.ofNat 16 (w % 2 ^ nbits)) s

end Sys2Proof.Machine
end

