-- ==== Sys2Proof/Machine/Loader.lean ====
section
/-! DEFINITION. The start of a run: loading program images into memory (spec/70_reset_and_hazards.md
R260 to R268). Loading is the host's, before the first step, and no transition of `step`. -/

namespace Sys2Proof.Machine

/-- The words of a byte sequence, first byte of a pair in bits 15:8; an odd byte at the end is ignored
(R265, R267). -/
def imageWords : List Byte → List Word
  | hi :: lo :: rest => (hi ++ lo) :: imageWords rest
  | [_] => []
  | [] => []

/-- Store words at consecutive addresses from `a` on. -/
def storeWords : List Word → Nat → Memory → Memory
  | [], _, m => m
  | v :: vs, a, m => storeWords vs (a + 1) (m.writeCell a v)

/-- `Load(b)`: the first word is the origin, the rest are stored from there on, "truncated if it would
exceed address 65535" (R265, R266). Fewer than two bytes: the load fails and no cell is written (R267;
log entry 15). -/
def load (image : List Byte) (s : State) : Option State :=
  match image with
  | hi :: lo :: rest =>
    let origin := (hi ++ lo : Word).toNat
    let kept := (imageWords rest).take (Config.memSize - origin)
    some { s with mem := storeWords kept origin s.mem }
  | [_] => none
  | [] => none

/-- Several images, in the caller's order (R268); the run does not begin when one of them fails to load
(log entry 15). -/
def loadAll : List (List Byte) → State → Option State
  | [], s => some s
  | image :: rest, s => (load image s).bind (loadAll rest)

/-- The start of a run of the machine with parameters `p`: reset, the images, then `pc` at the entry
address and `running` (R262), with the host's queue and the turns to come as the host has them (R40). -/
def State.boot (p : Params) (images : List (List Byte)) (inq : List Byte) (plan : List Turn) :
    Option State :=
  (loadAll images (((State.resetWith p).setInq inq).setPlan plan)).map
    (fun s => (s.setPc Config.pcStart).setRunning true)

end Sys2Proof.Machine
end

