-- ==== Sys2Proof/Safety.lean ====
section
/-! DEFINITION. The terms claims are stated in: how a run ended (spec/60_exceptions.md R239), the
invariant every turn keeps, and what it means that a part of the state is as before. -/

namespace Sys2Proof.Machine

/-! ### The end of a run -/

/-- The three ends of a run (R239). -/
inductive RunEnd where
  /-- TRAP HALT executed: "the only successful end". -/
  | halted
  /-- A fatal condition, with its record. -/
  | fatal (f : Fatal)
  /-- The host stopped the run. -/
  | stopped
  deriving DecidableEq, Repr

/-- How the run ended; none while it is on (R239). -/
def State.runEnd (s : State) : Option RunEnd :=
  if s.running then none
  else match s.fault with
    | some f => some (.fatal f)
    | none => if s.stopped then some .stopped else some .halted

/-! ### The invariant -/

/-- A value of `cond` is one of the three flag values: with parameters as R8 asks, one flag is set and no
other bit (R26, R27). -/
abbrev OneFlag (p : Params) (c : Word) : Prop := c = p.flPos ∨ c = p.flZro ∨ c = p.flNeg

/-- Every state a run reaches: parameters as R8 asks, memory in its canonical form, `cond` at its reset
value or with one flag set (R29), no fault and no host stop recorded while `running` (R30 to R32), the core
between steps once the run has ended, and the three ends exclusive (R239). -/
abbrev State.Inv (s : State) : Prop :=
  s.params.Ok ∧
  s.mem.wf ∧
  (s.cond = s.params.condReset ∨ OneFlag s.params s.cond) ∧
  (s.running = true → s.fault = none ∧ s.stopped = false) ∧
  (s.running = false → s.phase = .boundary) ∧
  (s.stopped = true → s.fault = none)

/-- The core can take a fresh step: the run is on, nothing is recorded, and the core stands between steps
(R24). -/
abbrev State.Ready (s : State) : Prop := s.running = true ∧ s.fault = none ∧ s.phase = .boundary

/-- The next turn is the core's: the plan is empty or says so. `later` is the plan that turn leaves (log
entry 12). -/
abbrev CoreTurn (s : State) (later : List Turn) : Prop :=
  (s.plan = [] ∧ later = []) ∨ s.plan = .core :: later

/-- The bytes a turn of the host adds to the input queue (R39). -/
def Turn.bytes : Turn → List Byte
  | .core | .stop => []
  | .append b => [b]
  | .during bs => bs

/-! ### Frames: what stays as before -/

/-- Every register outside the list holds what it held. -/
abbrev SameRegsBut (rs : List Reg) (s t : State) : Prop := ∀ r, r ∉ rs → t.reg r = s.reg r

/-- Every cell outside the list holds what it held: all of memory but these addresses. -/
abbrev SameCellsBut (cells : List Word) (s t : State) : Prop := ∀ a, a ∉ cells → t.cell a = s.cell a

/-- The host's side of the state, the input queue, the output history and the turns to come, is as it
was. -/
abbrev SameHost (s t : State) : Prop := t.inq = s.inq ∧ t.out = s.out ∧ t.plan = s.plan

/-- The parameters, the run flag and the two records of an end are as they were. -/
abbrev SameRun (s t : State) : Prop :=
  t.params = s.params ∧ t.running = s.running ∧ t.fault = s.fault ∧ t.stopped = s.stopped

/-- `SameRun`, and the place of the core is as it was. -/
abbrev SameControl (s t : State) : Prop := SameRun s t ∧ t.phase = s.phase

/-- Only the destination register and `cond` changed: `v` went to `dr` and the flags classify it. Nothing
else of the machine or the host did, `pc` and every cell of memory included. -/
abbrev OnlyResult (dr : Reg) (v : Word) (s t : State) : Prop :=
  t.reg dr = v ∧ t.cond = classify s.params v ∧ SameRegsBut [dr] s t ∧ t.pc = s.pc ∧ SameCellsBut [] s t ∧
  SameHost s t ∧ SameControl s t

/-- Only `pc` changed, to `v`. -/
abbrev OnlyPc (v : Word) (s t : State) : Prop :=
  t.pc = v ∧ SameRegsBut [] s t ∧ t.cond = s.cond ∧ SameCellsBut [] s t ∧ SameHost s t ∧ SameControl s t

/-- Only the cell at `a` changed, to `v`. -/
abbrev OnlyCell (a v : Word) (s t : State) : Prop :=
  t.cell a = v ∧ SameCellsBut [a] s t ∧ SameRegsBut [] s t ∧ t.cond = s.cond ∧ t.pc = s.pc ∧
  SameHost s t ∧ SameControl s t

/-- Only the output history grew, by `bs`; where the core stands is stated beside it. -/
abbrev OnlyOutput (bs : List Byte) (s t : State) : Prop :=
  t.out = s.out ++ bs ∧ SameRegsBut [] s t ∧ t.cond = s.cond ∧ t.pc = s.pc ∧ SameCellsBut [] s t ∧
  t.inq = s.inq ∧ t.plan = s.plan ∧ SameRun s t

/-- Nothing but the two device cells and the input queue changed. -/
abbrev OnlyDevice (s t : State) : Prop :=
  SameRegsBut [] s t ∧ t.cond = s.cond ∧ t.pc = s.pc ∧
  SameCellsBut [s.params.kbsrAddr, s.params.kbdrAddr] s t ∧ t.out = s.out ∧ t.plan = s.plan ∧
  SameControl s t

/-- `dr` was loaded from the cell at `a` and the flags classify the value. An ordinary cell: nothing else
changed. The status cell, with the bytes that have arrived by this look: with byte `b` next in the queue
0x8000 was loaded and the byte went to the data cell; with an empty queue 0x0000 was loaded and the status
cell cleared (R51, R52). -/
abbrev Loaded (dr : Reg) (a : Word) (s t : State) : Prop :=
  SameRegsBut [dr] s t ∧ t.pc = s.pc ∧ t.out = s.out ∧ SameControl s t ∧
  (a ≠ s.params.kbsrAddr →
    t.reg dr = s.cell a ∧ t.cond = classify s.params (s.cell a) ∧ SameCellsBut [] s t ∧ SameHost s t) ∧
  (a = s.params.kbsrAddr → t.plan = (arrive s).plan ∧
    (∀ b rest, (arrive s).inq = b :: rest →
      t.reg dr = 0x8000#16 ∧ t.cond = s.params.flNeg ∧ t.cell s.params.kbsrAddr = 0x8000#16 ∧
      t.cell s.params.kbdrAddr = b.setWidth 16 ∧
      SameCellsBut [s.params.kbsrAddr, s.params.kbdrAddr] s t ∧ t.inq = rest) ∧
    ((arrive s).inq = [] →
      t.reg dr = 0#16 ∧ t.cond = s.params.flZro ∧ t.cell s.params.kbsrAddr = 0#16 ∧
      SameCellsBut [s.params.kbsrAddr] s t ∧ t.inq = []))

end Sys2Proof.Machine

/-! ### What an instruction touches -/

namespace Sys2Proof

open Machine

/-- The registers an instruction can write: its DR, R7 of JSR and JSRR, R0 of GETC and IN (R22). -/
def Instr.destRegs : Instr → List Reg
  | .addReg dr _ _ | .addImm dr _ _ | .andReg dr _ _ | .andImm dr _ _ | .not dr _ => [dr]
  | .ld dr _ | .ldi dr _ | .ldr dr _ _ | .lea dr _ => [dr]
  | .jsr _ | .jsrr _ => [.r7]
  | .trapGetc | .trapIn => [.r0]
  | .br _ _ | .jmp _ | .st _ _ | .sti _ _ | .str _ _ _ => []
  | .trapOut | .trapPuts | .trapPutsp | .trapHalt | .trapUnknown _ | .reservedA _ | .reservedB _ => []

/-- The instructions that write `cond`: R28's left column. -/
def Instr.writesCond : Instr → Bool
  | .addReg _ _ _ | .addImm _ _ _ | .andReg _ _ _ | .andImm _ _ _ | .not _ _ => true
  | .ld _ _ | .ldi _ _ | .ldr _ _ _ | .lea _ _ | .trapGetc | .trapIn => true
  | .br _ _ | .jmp _ | .jsr _ | .jsrr _ | .st _ _ | .sti _ _ | .str _ _ _ => false
  | .trapOut | .trapPuts | .trapPutsp | .trapHalt | .trapUnknown _ | .reservedA _ | .reservedB _ => false

/-- The cell an instruction stores to, computed as its meaning computes it (R170 to R174). -/
def Instr.storeAddr (i : Instr) (s : State) : Option Word :=
  match i with
  | .st _ off9 => some (pcRelative off9 s)
  | .sti _ off9 => some (memRead (pcRelative off9 s) s).1
  | .str _ base off6 => some (basePlus base off6 s)
  | .addReg _ _ _ | .addImm _ _ _ | .andReg _ _ _ | .andImm _ _ _ | .not _ _ => none
  | .br _ _ | .jmp _ | .jsr _ | .jsrr _ | .ld _ _ | .ldi _ _ | .ldr _ _ _ | .lea _ _ => none
  | .trapGetc | .trapOut | .trapPuts | .trapIn | .trapPutsp | .trapHalt | .trapUnknown _ => none
  | .reservedA _ | .reservedB _ => none

/-- The register a store writes from (R176). -/
def Instr.storeReg : Instr → Option Reg
  | .st sr _ | .sti sr _ | .str sr _ _ => some sr
  | .addReg _ _ _ | .addImm _ _ _ | .andReg _ _ _ | .andImm _ _ _ | .not _ _ => none
  | .br _ _ | .jmp _ | .jsr _ | .jsrr _ | .ld _ _ | .ldi _ _ | .ldr _ _ _ | .lea _ _ => none
  | .trapGetc | .trapOut | .trapPuts | .trapIn | .trapPutsp | .trapHalt | .trapUnknown _ => none
  | .reservedA _ | .reservedB _ => none

/-- The control transfers: the only instructions that change `pc` beyond the fetch (R25). -/
def Instr.transfers : Instr → Bool
  | .br _ _ | .jmp _ | .jsr _ | .jsrr _ => true
  | .addReg _ _ _ | .addImm _ _ _ | .andReg _ _ _ | .andImm _ _ _ | .not _ _ => false
  | .ld _ _ | .ldi _ _ | .ldr _ _ _ | .lea _ _ | .st _ _ | .sti _ _ | .str _ _ _ => false
  | .trapGetc | .trapOut | .trapPuts | .trapIn | .trapPutsp | .trapHalt | .trapUnknown _ => false
  | .reservedA _ | .reservedB _ => false

/-- The addresses an instruction reads through the memory interface after its fetch, in order (R54). -/
def Instr.readAddrs (i : Instr) (s : State) : List Word :=
  match i with
  | .ld _ off9 => [pcRelative off9 s]
  | .ldi _ off9 => [pcRelative off9 s, (memRead (pcRelative off9 s) s).1]
  | .ldr _ base off6 => [basePlus base off6 s]
  | .sti _ off9 => [pcRelative off9 s]
  | .addReg _ _ _ | .addImm _ _ _ | .andReg _ _ _ | .andImm _ _ _ | .not _ _ => []
  | .br _ _ | .jmp _ | .jsr _ | .jsrr _ | .lea _ _ | .st _ _ | .str _ _ _ => []
  | .trapGetc | .trapOut | .trapPuts | .trapIn | .trapPutsp | .trapHalt | .trapUnknown _ => []
  | .reservedA _ | .reservedB _ => []

/-- The illegal encodings: R89's two sets. -/
def Instr.illegal : Instr → Bool
  | .reservedA _ | .reservedB _ | .trapUnknown _ => true
  | .addReg _ _ _ | .addImm _ _ _ | .andReg _ _ _ | .andImm _ _ _ | .not _ _ => false
  | .br _ _ | .jmp _ | .jsr _ | .jsrr _ | .ld _ _ | .ldi _ _ | .ldr _ _ _ | .lea _ _ => false
  | .st _ _ | .sti _ _ | .str _ _ _ => false
  | .trapGetc | .trapOut | .trapPuts | .trapIn | .trapPutsp | .trapHalt => false

end Sys2Proof
end

