-- ==== Sys2Proof/Certificates/Slice0/Obligations.lean ====
section
/-! DEFINITION. The statements for the provers, from the numbered rules of spec/. An instruction's
statement is about `exec` on the state after the fetch, so `s.pc` there is the incremented `pc`
(spec/10_state.md R24). A statement holds for every value of the parameters of R8, or for those that meet
R8's conditions (`Params.Ok`), unless it names the defaults. Where it rests on a choice the spec marks as
its own or on a log entry, its docstring names it. -/

open Sys2Proof Sys2Proof.Machine

/-! ### Encoding -/

/-- Decoding the word of a well-formed instruction gives the instruction back, every operand at every
value, for all opcode numbers and field positions that meet R8's conditions (R8, R82, R83, R85; that
positions must fit: log entry 2). -/
def Obligations.DecodeEncodeRoundTrip : Prop :=
  ∀ (p : Params) (i : Instr), p.Ok → i.wellFormed = true → decode p (encode p i) = i

/-- Encoding what a word decodes to gives the word with its ignored bits cleared: the decoder drops no
other bit (R83, R87; decision D20 of the spec, log entry 17; zeros there: log entry 9). -/
def Obligations.EncodeDecodeKeepsReadBits : Prop :=
  ∀ (p : Params) (w : Word), p.Ok → encode p (decode p w) = w &&& (decode p w).readBits p

/-- Two words that agree on the bits the first one's row reads are the same instruction: ignored bits
have no effect and no value of them is illegal (R87; decision D20 of the spec, log entry 17). -/
def Obligations.IgnoredBitsHaveNoEffect : Prop :=
  ∀ (p : Params) (w v : Word), p.Ok →
    v &&& (decode p w).readBits p = w &&& (decode p w).readBits p → decode p v = decode p w

/-- Every word decodes to a well-formed instruction: decoding never fails (R88). -/
def Obligations.DecodedWordsAreWellFormed : Prop :=
  ∀ (p : Params) (w : Word), (decode p w).wellFormed = true

/-- Words the spec writes out in its instruction rules decode, with the default parameters, to the
instruction it names there (R110 to R221, R87; opcode numbers and positions: log entries 1 and 2). That bits
a row does not read are ignored is decision D20 of the spec, log entry 17. -/
def Obligations.SpecWordsDecode : Prop :=
  decode Params.default 0x14C4#16 = .addReg .r2 .r3 .r4 ∧
  decode Params.default 0x14FF#16 = .addImm .r2 .r3 31#5 ∧
  decode Params.default 0x1018#16 = .addReg .r0 .r0 .r0 ∧
  decode Params.default 0x5283#16 = .andReg .r1 .r2 .r3 ∧
  decode Params.default 0x5020#16 = .andImm .r0 .r0 0#5 ∧
  decode Params.default 0x92BF#16 = .not .r1 .r2 ∧
  decode Params.default 0x0405#16 = .br 2#3 5#9 ∧
  decode Params.default 0xC0C0#16 = .jmp .r3 ∧
  decode Params.default 0xCFFF#16 = .jmp .r7 ∧
  decode Params.default 0x4804#16 = .jsr 4#11 ∧
  decode Params.default 0x4080#16 = .jsrr .r2 ∧
  decode Params.default 0x2202#16 = .ld .r1 2#9 ∧
  decode Params.default 0xA1FE#16 = .ldi .r0 0x1FE#9 ∧
  decode Params.default 0x6283#16 = .ldr .r1 .r2 3#6 ∧
  decode Params.default 0xE002#16 = .lea .r0 2#9 ∧
  decode Params.default 0x3202#16 = .st .r1 2#9 ∧
  decode Params.default 0xB201#16 = .sti .r1 1#9 ∧
  decode Params.default 0x7283#16 = .str .r1 .r2 3#6 ∧
  decode Params.default 0xF020#16 = .trapGetc ∧
  decode Params.default 0xFF25#16 = .trapHalt ∧
  decode Params.default 0xF026#16 = .trapUnknown 0x26#8 ∧
  decode Params.default 0x8000#16 = .reservedA 0#12 ∧
  decode Params.default 0xD123#16 = .reservedB 0x123#12

/-- The illegal encodings are exactly two sets: the reserved opcodes, and TRAP with a vector outside the
six (R89; fatal by decision D7 of the spec, log entry 17). -/
def Obligations.IllegalEncodingsAreTwoSets : Prop :=
  ∀ (p : Params) (w : Word), p.Ok → ((decode p w).illegal = true ↔
    (fieldOpcode w = p.opcRsvA ∨ fieldOpcode w = p.opcRsvB ∨
      (fieldOpcode w = p.opcTrap ∧ (fieldVec w).toNat ∉ [0x20, 0x21, 0x22, 0x23, 0x24, 0x25])))

/-! ### Operands -/

/-- Sign extension of the low n bits of a value: bit i of the result is bit i of the value below n, and
bit n-1 of it from there up to bit 15; so the low n bits are the value's (R11). -/
def Obligations.SignExtensionReplicatesTopBit : Prop :=
  ∀ (n : Nat) (v : Word), 1 ≤ n → n ≤ 16 →
    (∀ i < 16, (sext (v.extractLsb' 0 n)).getLsbD i =
      if i < n then v.getLsbD i else v.getLsbD (n - 1)) ∧
    (sext (v.extractLsb' 0 n)).extractLsb' 0 n = v.extractLsb' 0 n

/-- Every effective address is the sum of its base and the signed value of its offset, modulo 2^16 (R56,
for each addressing mode: PC-relative with 9 and 11 bits, base plus 6 bits). -/
def Obligations.EffectiveAddressesWrap : Prop :=
  ∀ s : State,
    (∀ off : BitVec 9,
      ((pcRelative off s).toNat : Int) = ((s.pc.toNat : Int) + off.toInt) % 65536) ∧
    (∀ off : BitVec 11,
      ((pcRelative off s).toNat : Int) = ((s.pc.toNat : Int) + off.toInt) % 65536) ∧
    (∀ (base : Reg) (off : BitVec 6),
      ((basePlus base off s).toNat : Int) = (((s.reg base).toNat : Int) + off.toInt) % 65536)

/-! ### The memory interface and the flags -/

/-- `MemRead` of an ordinary cell returns it and changes nothing; of the status cell it polls: a byte that
has arrived by this look is consumed into the data cell and 0x8000 is returned, else the status cell is
cleared and 0x0000 is returned (R36, R51; decisions D8 and D9 of the spec in R52, log entry 17; arrivals:
log entry 12). The input is a queue by decision D28 of the spec, log entry 17. -/
def Obligations.MemReadPollsOnlyStatusCell : Prop :=
  ∀ (a : Word) (s : State), s.params.Ok →
    (a ≠ s.params.kbsrAddr → memRead a s = (s.cell a, s)) ∧
    (a = s.params.kbsrAddr → ∀ b rest, (arrive s).inq = b :: rest → ∃ t, memRead a s = (0x8000#16, t) ∧
      t.cell s.params.kbsrAddr = 0x8000#16 ∧ t.cell s.params.kbdrAddr = b.setWidth 16 ∧ t.inq = rest ∧
      OnlyDevice (arrive s) t) ∧
    (a = s.params.kbsrAddr → (arrive s).inq = [] → ∃ t, memRead a s = (0#16, t) ∧
      t.cell s.params.kbsrAddr = 0#16 ∧ t.cell s.params.kbdrAddr = s.cell s.params.kbdrAddr ∧
      t.inq = [] ∧ OnlyDevice (arrive s) t)

/-- `MemWrite` stores the cell and does nothing else at any address, the device cells included: it does not
poll, consume or print. A later read of the data cell returns what was stored there until a status read with
a byte available replaces it; a later read of the status cell overwrites what was stored there before it
returns (R53). That it then answers as without the store rests on a poll that assigns the whole status cell:
decision D8 of the spec (R52 point 1), log entry 17. That a poll takes the byte is decision D9 and the queue
decision D28 of the spec, log entry 17; arrivals: log entry 12. -/
def Obligations.MemWriteIsAPlainCellStore : Prop :=
  ∀ (a v : Word) (s : State), s.params.Ok →
    OnlyCell a v s (memWrite a v s) ∧
    (memRead s.params.kbdrAddr (memWrite s.params.kbdrAddr v s)).1 = v ∧
    ((arrive s).inq = [] →
      (memRead s.params.kbsrAddr (memWrite s.params.kbdrAddr v s)).2.cell s.params.kbdrAddr = v) ∧
    (∀ b rest, (arrive s).inq = b :: rest →
      (memRead s.params.kbsrAddr (memWrite s.params.kbdrAddr v s)).2.cell s.params.kbdrAddr =
        b.setWidth 16) ∧
    (memRead s.params.kbsrAddr (memWrite s.params.kbsrAddr v s)).1 = (memRead s.params.kbsrAddr s).1 ∧
    (memRead s.params.kbsrAddr (memWrite s.params.kbsrAddr v s)).2.cell s.params.kbsrAddr =
      (memRead s.params.kbsrAddr s).1

/-- `SetFlags(i)` sets ZERO exactly for 0, NEGATIVE exactly when bit 15 is set, POSITIVE otherwise; one
flag and no other bit is set, nothing but `cond` changes, and after a write of the register it is the
written value that is classified (R27). -/
def Obligations.SetFlagsClassifiesTheRegister : Prop :=
  ∀ (r : Reg) (s : State), s.params.Ok →
    ((setFlags r s).cond = s.params.flZro ↔ s.reg r = 0#16) ∧
    ((setFlags r s).cond = s.params.flNeg ↔ (s.reg r).getLsbD 15 = true) ∧
    ((setFlags r s).cond = s.params.flPos ↔ (s.reg r ≠ 0#16 ∧ (s.reg r).getLsbD 15 = false)) ∧
    OneFlag s.params (setFlags r s).cond ∧
    (∀ v, (setFlags r (s.setReg r v)).cond = classify s.params v) ∧
    SameRegsBut [] s (setFlags r s) ∧ (setFlags r s).pc = s.pc ∧ SameCellsBut [] s (setFlags r s) ∧
    SameHost s (setFlags r s) ∧ SameControl s (setFlags r s)

/-! ### Arithmetic and logic -/

/-- ADD, both forms: the sum modulo 2^16, with a register or with the sign-extended immediate, to DR, flags
from it, nothing else (R110, R112). -/
def Obligations.AddBothForms : Prop :=
  (∀ (dr sr1 sr2 : Reg) (s : State), ∃ t, exec (.addReg dr sr1 sr2) s = .next t ∧
    OnlyResult dr (s.reg sr1 + s.reg sr2) s t) ∧
  (∀ (dr sr1 : Reg) (imm5 : BitVec 5) (s : State), ∃ t, exec (.addImm dr sr1 imm5) s = .next t ∧
    OnlyResult dr (s.reg sr1 + imm5.signExtend 16) s t)

/-- AND, both forms; the immediate is sign-extended before the AND (R114, R116). -/
def Obligations.AndBothForms : Prop :=
  (∀ (dr sr1 sr2 : Reg) (s : State), ∃ t, exec (.andReg dr sr1 sr2) s = .next t ∧
    OnlyResult dr (s.reg sr1 &&& s.reg sr2) s t) ∧
  (∀ (dr sr1 : Reg) (imm5 : BitVec 5) (s : State), ∃ t, exec (.andImm dr sr1 imm5) s = .next t ∧
    OnlyResult dr (s.reg sr1 &&& imm5.signExtend 16) s t)

/-- NOT: the 16-bit complement, 0xFFFF - x[SR] (R118). -/
def Obligations.NotComplements : Prop :=
  ∀ (dr sr : Reg) (s : State), ∃ t, exec (.not dr sr) s = .next t ∧
    OnlyResult dr (0xFFFF#16 - s.reg sr) s t

/-! ### Control transfer -/

/-- BR is taken exactly when a flag set in `cond` is selected by the nzp bit that lines up with it; the
target is relative to the incremented `pc`; nothing but `pc` changes. With no flag set, as from reset by
default, no BR is taken, and with the default flags n (bit 2) selects NEGATIVE, z (bit 1) ZERO, p (bit 0)
POSITIVE (R130, R131; the flags' values and `COND_RESET`: log entries 3 and 6). -/
def Obligations.BranchTakenWhenFlagSelected : Prop :=
  ∀ (nzp : BitVec 3) (off9 : BitVec 9) (s : State), ∃ t, exec (.br nzp off9) s = .next t ∧
    OnlyPc (if (nzp.getLsbD 2 && s.cond.getLsbD 2) || (nzp.getLsbD 1 && s.cond.getLsbD 1) ||
        (nzp.getLsbD 0 && s.cond.getLsbD 0)
      then s.pc + off9.signExtend 16 else s.pc) s t ∧
    (s.cond = 0#16 → t.pc = s.pc) ∧
    (s.params = Params.default →
      (s.cond = s.params.flNeg → t.pc = if nzp.getLsbD 2 then s.pc + off9.signExtend 16 else s.pc) ∧
      (s.cond = s.params.flZro → t.pc = if nzp.getLsbD 1 then s.pc + off9.signExtend 16 else s.pc) ∧
      (s.cond = s.params.flPos → t.pc = if nzp.getLsbD 0 then s.pc + off9.signExtend 16 else s.pc) ∧
      (s.cond = s.params.condReset → t.pc = s.pc))

/-- JMP: `pc` becomes the base register, nothing else changes (R132). -/
def Obligations.JumpToRegister : Prop :=
  ∀ (base : Reg) (s : State), ∃ t, exec (.jmp base) s = .next t ∧ OnlyPc (s.reg base) s t

/-- JSR: R7 gets the address after the JSR, `pc` the target; no flag, no other register, no cell (R134; no
flags by decision D6 of the spec, log entry 17). The decision settles conflict C1 of the spec. -/
def Obligations.JsrLinksAndJumps : Prop :=
  ∀ (off11 : BitVec 11) (s : State), ∃ t, exec (.jsr off11) s = .next t ∧
    t.reg .r7 = s.pc ∧ t.pc = s.pc + off11.signExtend 16 ∧ SameRegsBut [.r7] s t ∧ t.cond = s.cond ∧
    SameCellsBut [] s t ∧ SameHost s t ∧ SameControl s t

/-- JSRR: R7 gets the address after the JSRR first; the target is the base register, which for R7 is already
that address (R136). No flags by decision D6 of the spec, which settles its conflict C1, log entry 17. -/
def Obligations.JsrrLinksBeforeItReads : Prop :=
  ∀ (base : Reg) (s : State), ∃ t, exec (.jsrr base) s = .next t ∧
    t.reg .r7 = s.pc ∧ t.pc = (if base = .r7 then s.pc else s.reg base) ∧ SameRegsBut [.r7] s t ∧
    t.cond = s.cond ∧ SameCellsBut [] s t ∧ SameHost s t ∧ SameControl s t

/-! ### Loads and stores -/

/-- LD loads the cell at `pc + sext_9` (R150, R51; a poll's outcome by decisions D8 and D9 of the spec in
R52, log entry 17; arrivals: log entry 12). The input is a queue by decision D28 of the spec, log entry 17.
-/
def Obligations.LdLoadsPcRelative : Prop :=
  ∀ (dr : Reg) (off9 : BitVec 9) (s : State), s.params.Ok → ∃ t, exec (.ld dr off9) s = .next t ∧
    Loaded dr (pcRelative off9 s) s t

/-- LDI reads the pointer at `pc + sext_9`, then, in the state that read leaves, the cell it points to
(R152, R55, R51; a poll's outcome by decisions D8 and D9 of the spec in R52, log entry 17; arrivals: log
entry 12). The input is a queue by decision D28 of the spec, log entry 17. -/
def Obligations.LdiReadsPointerThenDatum : Prop :=
  ∀ (dr : Reg) (off9 : BitVec 9) (s : State), s.params.Ok → ∃ t, exec (.ldi dr off9) s = .next t ∧
    Loaded dr (memRead (pcRelative off9 s) s).1 (memRead (pcRelative off9 s) s).2 t

/-- LDR loads the cell at `x[BaseR] + sext_6`, the address from the old value when DR is BaseR (R154, R51; a
poll's outcome by decisions D8 and D9 of the spec in R52, log entry 17; arrivals: log entry 12). The input
is a queue by decision D28 of the spec, log entry 17. -/
def Obligations.LdrLoadsBasePlusOffset : Prop :=
  ∀ (dr base : Reg) (off6 : BitVec 6) (s : State), s.params.Ok → ∃ t, exec (.ldr dr base off6) s = .next t ∧
    Loaded dr (basePlus base off6 s) s t

/-- LEA puts the address itself into DR, sets the flags from it and touches no memory (R156). -/
def Obligations.LeaComputesTheAddress : Prop :=
  ∀ (dr : Reg) (off9 : BitVec 9) (s : State), ∃ t, exec (.lea dr off9) s = .next t ∧
    OnlyResult dr (s.pc + off9.signExtend 16) s t

/-- ST stores SR in the cell at `pc + sext_9`, and nothing else changes (R170, R53). -/
def Obligations.StStoresPcRelative : Prop :=
  ∀ (sr : Reg) (off9 : BitVec 9) (s : State), ∃ t, exec (.st sr off9) s = .next t ∧
    OnlyCell (pcRelative off9 s) (s.reg sr) s t

/-- STI reads the pointer at `pc + sext_9`, then stores SR in the cell it points to; beyond what the pointer
read does, nothing else changes (R172, R55). What the pointer read leaves when it polls is decisions D8 and
D9 of the spec in R52, log entry 17; arrivals: log entry 12. -/
def Obligations.StiReadsPointerThenStores : Prop :=
  ∀ (sr : Reg) (off9 : BitVec 9) (s : State), ∃ t, exec (.sti sr off9) s = .next t ∧
    OnlyCell (memRead (pcRelative off9 s) s).1 (s.reg sr) (memRead (pcRelative off9 s) s).2 t

/-- STR stores SR in the cell at `x[BaseR] + sext_6`, and nothing else changes (R174). -/
def Obligations.StrStoresBasePlusOffset : Prop :=
  ∀ (sr base : Reg) (off6 : BitVec 6) (s : State), ∃ t, exec (.str sr base off6) s = .next t ∧
    OnlyCell (basePlus base off6 s) (s.reg sr) s t

/-! ### TRAP -/

/-- GETC with a byte there by its look: it is taken into R0, zero-extended, flags ZERO for byte 0 and
POSITIVE otherwise; no output, no cell, no other register (R192; arrivals: log entry 12). The input is a
queue by decision D28 of the spec, log entry 17. That a TRAP leaves R7 alone is decision D21 of the spec,
log entry 17. -/
def Obligations.GetcReadsOneByte : Prop :=
  ∀ (s : State) (c : Byte) (rest : List Byte), (arrive s).inq = c :: rest →
    ∃ t, exec .trapGetc s = .next t ∧ t.reg .r0 = c.setWidth 16 ∧
      t.cond = (if c = 0#8 then s.params.flZro else s.params.flPos) ∧ t.inq = rest ∧ t.out = s.out ∧
      t.phase = .boundary ∧ SameRegsBut [.r0] s t ∧ t.pc = s.pc ∧ SameCellsBut [] s t ∧
      t.plan = (arrive s).plan ∧ SameRun s t

/-- OUT writes the low byte of R0, and nothing else changes (R194). That a TRAP leaves R7 alone is decision
D21 of the spec, log entry 17. -/
def Obligations.OutWritesLowByte : Prop :=
  ∀ s : State, ∃ t, exec .trapOut s = .next t ∧
    OnlyOutput [BitVec.ofNat 8 ((s.reg .r0).toNat % 256)] s t ∧ t.phase = s.phase

/-- PUTS writes the low byte of every cell from R0 up to the first zero cell, wrapping at the top of memory,
and nothing else changes (R196; stored cells and wrap by decision D10 of the spec, log entry 17). That a
TRAP leaves R7 alone is decision D21 of the spec, log entry 17. -/
def Obligations.PutsWritesLowBytesUpToZero : Prop :=
  ∀ (s : State) (n : Nat), n < 65536 → s.cell (s.reg .r0 + BitVec.ofNat 16 n) = 0#16 →
    (∀ k < n, s.cell (s.reg .r0 + BitVec.ofNat 16 k) ≠ 0#16) →
    ∃ t, exec .trapPuts s = .next t ∧ t.phase = .boundary ∧
      OnlyOutput ((List.range n).map
        (fun k => (s.cell (s.reg .r0 + BitVec.ofNat 16 k)).setWidth 8)) s t

/-- IN with a byte there by its look: the prompt, then the byte echoed, the byte into R0 with its flags
(R198; arrivals: log entry 12; the prompt's default text: log entry 5). The input is a queue by decision D28
of the spec, log entry 17. That a TRAP leaves R7 alone is decision D21 of the spec, log entry 17. -/
def Obligations.InPromptsReadsAndEchoes : Prop :=
  ∀ (s : State) (c : Byte) (rest : List Byte), (arrive s).inq = c :: rest →
    ∃ t, exec .trapIn s = .next t ∧ t.reg .r0 = c.setWidth 16 ∧
      t.cond = (if c = 0#8 then s.params.flZro else s.params.flPos) ∧ t.inq = rest ∧
      t.out = s.out ++ s.params.inPrompt ++ [c] ∧ t.phase = .boundary ∧ SameRegsBut [.r0] s t ∧
      t.pc = s.pc ∧ SameCellsBut [] s t ∧ t.plan = (arrive s).plan ∧ SameRun s t

/-- PUTSP writes, for every cell from R0 up to the first zero cell, the low byte and then the high byte when
that is not zero, and nothing else changes (R200; decision D10 of the spec, log entry 17). That a TRAP
leaves R7 alone is decision D21 of the spec, log entry 17. -/
def Obligations.PutspWritesPackedBytesUpToZero : Prop :=
  ∀ (s : State) (n : Nat), n < 65536 → s.cell (s.reg .r0 + BitVec.ofNat 16 n) = 0#16 →
    (∀ k < n, s.cell (s.reg .r0 + BitVec.ofNat 16 k) ≠ 0#16) →
    ∃ t, exec .trapPutsp s = .next t ∧ t.phase = .boundary ∧
      OnlyOutput ((List.range n).flatMap (fun k =>
        (s.cell (s.reg .r0 + BitVec.ofNat 16 k)).setWidth 8 ::
          (if (s.cell (s.reg .r0 + BitVec.ofNat 16 k)).toNat < 256 then []
           else [(s.cell (s.reg .r0 + BitVec.ofNat 16 k) >>> 8).setWidth 8]))) s t

/-- HALT writes the notice and ends the run: no register, flag, cell or record changes and the run has ended
as halted when nothing was recorded before (R202, R239; the notice's default text: log entry 5). That the
end record tells a HALT from a host's stop is decision D25 of the spec, log entry 17. That a TRAP leaves R7
alone is decision D21 of the spec, log entry 17. -/
def Obligations.HaltEndsTheRun : Prop :=
  ∀ s : State, ∃ t, exec .trapHalt s = .next t ∧ t.running = false ∧ t.out = s.out ++ s.params.haltNotice ∧
    SameRegsBut [] s t ∧ t.cond = s.cond ∧ t.pc = s.pc ∧ SameCellsBut [] s t ∧ t.inq = s.inq ∧
    t.plan = s.plan ∧ t.params = s.params ∧ t.fault = s.fault ∧ t.stopped = s.stopped ∧
    t.phase = s.phase ∧
    (s.fault = none → s.stopped = false → t.runEnd = some .halted)

/-- GETC and IN with no byte there by their look block: IN has written its prompt, nothing that follows the
read has happened, and a core's turn inside a blocked trap makes no progress while no byte arrives: it uses
up its place in the plan, with any empty arrival, and nothing else (R37, R208; decision D27 of the spec, log
entry 17; the blocked phase: log entry 10; turns and arrivals: log entry 12). That no byte ends the wait at
the end of the input is decision D12 and the queue decision D28 of the spec, log entry 17. That a TRAP
leaves R7 alone is decision D21 of the spec, log entry 17. -/
def Obligations.InputTrapsBlockOnAnEmptyQueue : Prop :=
  (∀ s : State, (arrive s).inq = [] →
    (∃ t, exec .trapGetc s = .next t ∧ t.phase = .input .getc ∧ OnlyOutput [] (arrive s) t) ∧
    (∃ t, exec .trapIn s = .next t ∧ t.phase = .input .promptedIn ∧
      OnlyOutput s.params.inPrompt (arrive s) t)) ∧
  (∀ (s : State) (k : InputTrap) (later : List Turn), s.running = true → s.fault = none →
    s.phase = .input k → CoreTurn s later → (arrive (s.setPlan later)).inq = [] →
    step s = .next (arrive (s.setPlan later)))

/-- The core's turn completes a blocked trap with the next byte, as it would have without the wait; IN's
prompt is not written again (R192, R198, R208; the blocked phase: log entry 10; turns and arrivals: log
entry 12). What was done before the wait is not done again by decision D27 of the spec, log entry 17. The
input is a queue by decision D28 of the spec, log entry 17. That a TRAP leaves R7 alone is decision D21 of
the spec, log entry 17. -/
def Obligations.BlockedInputCompletes : Prop :=
  ∀ (s : State) (k : InputTrap) (c : Byte) (rest : List Byte) (later : List Turn),
    s.running = true → s.fault = none → s.phase = .input k → CoreTurn s later →
    (arrive (s.setPlan later)).inq = c :: rest →
    ∃ t, step s = .next t ∧ t.phase = .boundary ∧ t.reg .r0 = c.setWidth 16 ∧
      t.cond = (if c = 0#8 then s.params.flZro else s.params.flPos) ∧ t.inq = rest ∧
      t.out = (match k with | .getc => s.out | .promptedIn => s.out ++ [c]) ∧
      SameRegsBut [.r0] s t ∧ t.pc = s.pc ∧ SameCellsBut [] s t ∧
      t.plan = (arrive (s.setPlan later)).plan ∧ SameRun s t

/-- With no zero cell in memory a string scan never ends: PUTS and PUTSP leave the core scanning, every
further turn of the core leaves it scanning at the same address with more output and changes nothing else
but its place in the plan (R274; the scanning phase: log entry 11; turns: log entry 12). That the scan reads
stored cells and wraps is decision D10 of the spec, log entry 17. -/
def Obligations.StringScanWithoutZeroNeverEnds : Prop :=
  ∀ s : State, (∀ a, s.cell a ≠ 0#16) →
    (∃ t, exec .trapPuts s = .next t ∧ t.phase = .scan .puts (s.reg .r0) ∧ SameCellsBut [] s t) ∧
    (∃ t, exec .trapPutsp s = .next t ∧ t.phase = .scan .putsp (s.reg .r0) ∧ SameCellsBut [] s t) ∧
    (∀ k a later, s.running = true → s.fault = none → s.phase = .scan k a → CoreTurn s later →
      ∃ t bs, step s = .next t ∧ t.phase = .scan k a ∧ t.plan = later ∧ 65536 ≤ bs.length ∧
        OnlyOutput bs (s.setPlan later) t)

/-- A TRAP with a vector outside the six records it and ends the run; nothing else changes (R204, R232;
decisions D7, D13 and D14 of the spec, log entry 17). That no stop is recorded with it is decision D25 of
the spec, log entry 17. That a TRAP leaves R7 alone is decision D21 of the spec, log entry 17. -/
def Obligations.UnknownVectorIsFatal : Prop :=
  ∀ (vec : BitVec 8) (s : State), ∃ t, exec (.trapUnknown vec) s = .next t ∧
    t.fault = some (.unknownTrapVector vec) ∧ t.running = false ∧ SameRegsBut [] s t ∧
    t.cond = s.cond ∧ t.pc = s.pc ∧ SameCellsBut [] s t ∧ SameHost s t ∧ t.params = s.params ∧
    t.stopped = s.stopped ∧ t.phase = s.phase ∧ t.runEnd = some (.fatal (.unknownTrapVector vec))

/-! ### Reserved opcodes -/

/-- The two reserved instructions record the whole word and end the run, for every value of their low
bits, and every word with a reserved opcode is one of them: the word recorded is the word fetched (R220,
R221, R232; decisions D13 and D14 of the spec, log entry 17). -/
def Obligations.ReservedOpcodesAreFatal : Prop :=
  (∀ (low : BitVec 12) (s : State),
    exec (.reservedA low) s =
      .next { s with fault := some (.illegalOpcode (s.params.opcRsvA ++ low)), running := false } ∧
    exec (.reservedB low) s =
      .next { s with fault := some (.illegalOpcode (s.params.opcRsvB ++ low)), running := false }) ∧
  (∀ (p : Params) (w : Word), p.Ok →
    (fieldOpcode w = p.opcRsvA → ∃ low, decode p w = .reservedA low ∧ p.opcRsvA ++ low = w) ∧
    (fieldOpcode w = p.opcRsvB → ∃ low, decode p w = .reservedB low ∧ p.opcRsvB ++ low = w))

/-! ### All instructions -/

/-- Every instruction answers a next state in every state. No memory access has an error condition (R33,
R50), and the fatal conditions are the only ones there are (R231) and are next states. For GETC and IN with
no byte waiting, and PUTS and PUTSP with no zero cell in memory, the spec's step does not complete (R37,
R39, R208, R274): that `exec` answers the blocked or scanning state there is the model's choice, log entries
10 and 11. That an unknown vector is fatal is decision D7, the two fatal conditions decision D13 and the
blocked state decision D27 of the spec, log entry 17. -/
def Obligations.EveryInstructionAnswersNext : Prop :=
  ∀ (i : Instr) (s : State), ∃ t, exec i s = .next t

/-- A register changes only as the destination of the instruction: its DR, R7 of JSR and JSRR, R0 of GETC
and IN; TRAP writes no link register (R22; decision D21 of the spec, log entry 17). That a fatal condition
changes no register is decision D14 and that a blocked trap has not yet written R0 decision D27, log entry
17. -/
def Obligations.RegistersChangeOnlyAsDestination : Prop :=
  ∀ (i : Instr) (s t : State), exec i s = .next t → SameRegsBut i.destRegs s t

/-- `cond` changes only by the flag writers, and there it classifies the destination's new value, unless an
input trap is blocked (R28; decisions D6 and D27 of the spec, log entries 10 and 17). That a fatal condition
leaves cond is decision D14 of the spec, log entry 17. -/
def Obligations.CondChangesOnlyByFlagWriters : Prop :=
  ∀ (i : Instr) (s t : State), exec i s = .next t →
    (i.writesCond = false → t.cond = s.cond) ∧
    (i.writesCond = true → (∀ d ∈ i.destRegs, t.cond = classify s.params (t.reg d)) ∨
      (t.cond = s.cond ∧ ∃ k, t.phase = .input k))

/-- Beyond the fetch only BR, JMP, JSR and JSRR change `pc` (R25). That pc stays past the word at a fatal
condition is decision D14 of the spec, log entry 17; at a blocked trap and in an endless scan log entries 10
and 11. -/
def Obligations.PcChangesOnlyByTransfers : Prop :=
  ∀ (i : Instr) (s t : State), exec i s = .next t → i.transfers = false → t.pc = s.pc

/-- A cell keeps its value unless the instruction stores to its address or, for the two device cells, reads
the status cell through the memory interface (R51, R53, R54; string scans do not poll by decision D10 of the
spec, log entry 17). That a fatal condition changes no cell is decision D14 of the spec, log entry 17. -/
def Obligations.CellsChangeOnlyByStoreOrPoll : Prop :=
  ∀ (i : Instr) (s t : State), exec i s = .next t → ∀ a,
    i.storeAddr s ≠ some a →
    (s.params.kbsrAddr ∈ i.readAddrs s → a ≠ s.params.kbsrAddr ∧ a ≠ s.params.kbdrAddr) →
    t.cell a = s.cell a

/-- An instruction records a fatal condition exactly when its encoding is illegal: no other instruction and
no memory access can (R89, R231; decision D7 of the spec, log entry 17). The fault record is decision D13 of
the spec, log entry 17. -/
def Obligations.OnlyIllegalEncodingsAreFatal : Prop :=
  ∀ (i : Instr) (s t : State), exec i s = .next t →
    (i.illegal = false → t.fault = s.fault) ∧
    (i.illegal = true → t.fault ≠ none ∧ t.running = false)

/-! ### Steps -/

/-- When the word the memory interface reads at `pc` decodes to an instruction, the core's turn runs it with
`pc` advanced, in the state the read leaves; at an ordinary cell that word is the cell's and the read leaves
the state as it was. The turn is the core's when the plan is empty or says so, and uses up its place (R14,
R24; decision D24 of the spec, log entry 17; turns: log entry 12). The parameters it decodes with stand in
the state by log entry 20. -/
def Obligations.StepRunsDecodedInstruction : Prop :=
  ∀ (s : State) (i : Instr) (later : List Turn), s.Ready → CoreTurn s later →
    (decode s.params (memRead s.pc (s.setPlan later)).1 = i →
      step s = exec i ((memRead s.pc (s.setPlan later)).2.setPc (s.pc + 1#16))) ∧
    (s.pc ≠ s.params.kbsrAddr → decode s.params (s.cell s.pc) = i →
      step s = exec i ((s.setPlan later).setPc (s.pc + 1#16))) ∧
    (s.plan = [] → s.setPlan later = s)

/-- A fetch from the status cell never sees the word stored there: with a byte there by this look it fetches
0x8000, the byte in the data cell, and with none it fetches 0x0000. Where 0x8000 is a reserved opcode, as by
default, the first ends the run fatally; where 0x0000 is BR with nzp 0, as by default, the second only
advances `pc` (R271; decision D24 of the spec, log entry 17; default numbers: log entry 1; turns and
arrivals: log entry 12). What a poll leaves is decisions D8 and D9 of the spec in R52, log entry 17. The
input is a queue by decision D28 of the spec, log entry 17. The record of the fatal end is decisions D13 and
D14 of the spec, log entry 17; the default positions: log entry 2. -/
def Obligations.FetchAtStatusCellPolls : Prop :=
  ∀ (s : State) (later : List Turn), s.params.Ok → s.Ready → CoreTurn s later →
    s.pc = s.params.kbsrAddr →
    (∀ b rest, (arrive (s.setPlan later)).inq = b :: rest → ∃ u,
      step s = exec (decode s.params 0x8000#16) u ∧ u.pc = s.pc + 1#16 ∧
      u.cell s.params.kbsrAddr = 0x8000#16 ∧ u.cell s.params.kbdrAddr = b.setWidth 16 ∧ u.inq = rest ∧
      SameCellsBut [s.params.kbsrAddr, s.params.kbdrAddr] s u ∧ SameRegsBut [] s u ∧ u.cond = s.cond ∧
      u.out = s.out ∧ u.plan = (arrive (s.setPlan later)).plan ∧ SameControl s u ∧
      (decode s.params 0x8000#16 = .reservedA 0#12 →
        step s = .next (raiseFatal (.illegalOpcode (s.params.opcRsvA ++ 0#12)) u))) ∧
    ((arrive (s.setPlan later)).inq = [] → ∃ u,
      step s = exec (decode s.params 0#16) u ∧ u.pc = s.pc + 1#16 ∧
      u.cell s.params.kbsrAddr = 0#16 ∧ SameCellsBut [s.params.kbsrAddr] s u ∧ SameRegsBut [] s u ∧
      u.cond = s.cond ∧ SameHost (arrive (s.setPlan later)) u ∧ SameControl s u ∧
      (decode s.params 0#16 = .br 0#3 0#9 → step s = .next u)) ∧
    (s.params = Params.default → decode s.params 0x8000#16 = .reservedA 0#12 ∧
      s.params.opcRsvA ++ 0#12 = 0x8000#16 ∧ decode s.params 0#16 = .br 0#3 0#9)

/-- A store to the cell at `pc` is what the very next fetch sees, with nothing in between, for each of the
three stores (R65, for a cell other than the status cell, whose fetch polls; turns: log entry 12). The
parameters it decodes with stand in the state by log entry 20. -/
def Obligations.StoredWordIsFetchedNext : Prop :=
  ∀ (i : Instr) (r : Reg) (s t : State) (later : List Turn), s.Ready → s.pc ≠ s.params.kbsrAddr →
    i.storeReg = some r → i.storeAddr s = some s.pc → exec i s = .next t → CoreTurn t later →
    step t = exec (decode s.params (s.reg r)) ((t.setPlan later).setPc (s.pc + 1#16))

/-- The host's append turn adds one byte at the end of the input queue, at any time, and does nothing else;
a turn `during` adds its bytes in the same way, in the core's next look at the queue or as a turn of its
own, and with no such turn to come nothing arrives in a look (R36, R39; decision D28 of the spec, log entry
17; turns and arrivals: log entry 12). What the host may do is R241, decisions D18 and D26 of the spec, log
entry 17. -/
def Obligations.HostAppendTurn : Prop :=
  ∀ (s : State) (rest : List Turn),
    (∀ b, s.plan = .append b :: rest → step s = .next { s with inq := s.inq ++ [b], plan := rest }) ∧
    (∀ bs, s.plan = .during bs :: rest → step s = .next { s with inq := s.inq ++ bs, plan := rest } ∧
      arrive s = { s with inq := s.inq ++ bs, plan := rest }) ∧
    ((∀ bs later, s.plan ≠ .during bs :: later) → arrive s = s)

/-- The host's stop turn between two steps of a run clears `running`, records the stop and does nothing
else; inside a step, or after the end of the run, it does nothing (R208, R239, R240; decision D25 of the
spec; log entries 12 and 16). The two decisions, D25 and for R208 D27, are in log entry 17. -/
def Obligations.HostStopTurn : Prop :=
  ∀ (s : State) (rest : List Turn), s.plan = .stop :: rest →
    ((s.running = true ∧ s.phase = .boundary) →
      step s = .next { s with running := false, stopped := true, plan := rest }) ∧
    (¬(s.running = true ∧ s.phase = .boundary) → step s = .next { s with plan := rest })

/-- Once `running` is false or a fault is recorded the core takes no step (R24, R30, R234; decision D23 of
the spec; the outcome's name: log entry 8). The decision is in log entry 17; turns: log entry 12. -/
def Obligations.EndedMachineTakesNoStep : Prop :=
  ∀ s : State, (s.running = false ∨ s.fault ≠ none) →
    (s.plan = [] → step s = .fault .runEnded) ∧
    (∀ rest, s.plan = .core :: rest → step s = .fault .runEnded)

/-- The end of a run is final: no turn sets `running` again, clears a recorded fault or clears a recorded
stop (R30, R31, R234; decision D23 of the spec, log entry 17). That a recorded stop stays rests on the end
record of R239, decision D25 of the spec, log entry 17, and on the host's stop of log entry 16. Turns: log
entry 12. -/
def Obligations.EndOfRunIsFinal : Prop :=
  ∀ s t : State, step s = .next t →
    (s.running = false → t.running = false) ∧ (∀ f, s.fault = some f → t.fault = some f) ∧
    (s.stopped = true → t.stopped = true)

/-- `running` becomes false in exactly three ways: the host's stop turn, an illegal encoding fetched, or
TRAP HALT fetched (R30, R239; conflict C6 of the spec). That the stop is recorded, as the third value of the
end record, is decision D25, that an unknown vector is fatal decision D7, the fault record decision D13 and
that the fetch polls decision D24 of the spec, log entry 17; that a stop acts only between steps: log entry
16; turns: log entry 12. -/
def Obligations.RunEndsInThreeWays : Prop :=
  ∀ s t : State, step s = .next t → s.running = true → t.running = false →
    ((∃ rest, s.plan = .stop :: rest) ∧ t.stopped = true ∧ t.fault = s.fault) ∨
    (∃ later, CoreTurn s later ∧ s.Ready ∧
      (((decode s.params (fetch (s.setPlan later)).1).illegal = true ∧ t.fault ≠ none ∧
          t.stopped = s.stopped) ∨
        (decode s.params (fetch (s.setPlan later)).1 = .trapHalt ∧ t.fault = none ∧
          t.stopped = s.stopped)))

/-- The invariant is kept by every turn, from every state that meets it: parameters as R8 asks, canonical
memory, `cond` at its reset value or one-hot, nothing recorded while running, the core between steps after
the end (R8, R29 to R33, R232, R239; memory's form: log entry 7). No turn changes a parameter (log entry
20). The fault record is decision D13, a fatal end decision D14 and the record of a stop decision D25 of the
spec, log entry 17; that a stop acts only between steps: log entry 16; the phase: log entries 10 and 11;
turns: log entry 12. -/
def Obligations.EveryTurnKeepsTheInvariant : Prop :=
  ∀ s t : State, step s = .next t → t.params = s.params ∧ (s.Inv → t.Inv)

/-- The reset state meets the invariant, for all parameters that meet R8's conditions, and the defaults do
(R8, R40). R40 gives the end record of R239 no value: that no stop is recorded at reset is DEDUCED from
R239, log entry 16; that the core stands between steps is log entry 10; memory's form is log entry 7. The
default of COND_RESET: log entry 6. -/
def Obligations.ResetMeetsTheInvariant : Prop :=
  (∀ p : Params, p.Ok → (State.resetWith p).Inv) ∧ State.reset.Inv

/-- Once exactly one flag is set, exactly one is set after every turn: `cond` is one of the three flag
values (R29; that they are one-hot is R8's condition on the parameters). That JSR and JSRR leave cond is
decision D6, that a fatal condition does decision D14, and that the host writes no register decision D26 of
the spec, log entry 17; turns: log entry 12. -/
def Obligations.ExactlyOneFlagIsKept : Prop :=
  ∀ s t : State, OneFlag s.params s.cond → step s = .next t → OneFlag t.params t.cond

/-- No turn takes back or changes a byte of the output history: it only grows at its end (R38). The history
of a turn comes together by log entry 19; turns: log entry 12. -/
def Obligations.OutputHistoryOnlyGrows : Prop :=
  ∀ s t : State, step s = .next t → ∃ bs, t.out = s.out ++ bs

/-- Input is taken from the head of the queue, a byte at a look, and added at its end by the host alone:
what was there and the bytes of the turns used up are the bytes taken, in order, and what is left. A turn of
the core looks at most three times, for the fetch and for LDI's pointer and datum (R39, R51, R55; arrivals:
log entry 12). With the default parameters it takes at most one byte: that no step then polls twice with a
byte to take rests on what a poll leaves in the status cell, 0x8000 or 0x0000 (R271; decision D8 of the
spec, log entry 17), on the opcode numbers (R85, R89; decision D1, log entry 1) and on the status cell's
address (log entry 4). That a poll takes the byte is decision D9, that the fetch polls decision D24, and the
queue decision D28 of the spec, log entry 17. -/
def Obligations.InputTakenOneByteATime : Prop :=
  ∀ s t : State, step s = .next t → ∃ (used : List Turn) (taken : List Byte),
    s.plan = used ++ t.plan ∧ s.inq ++ used.flatMap Turn.bytes = taken ++ t.inq ∧ taken.length ≤ 3 ∧
    (s.params = Params.default → taken.length ≤ 1)

/-- A cell changes only because the instruction fetched by this turn stores to it or, for the two device
cells, because this turn polls: its fetch or its instruction reads the status cell through the memory
interface. No turn of the host and no wait changes one (R51, R53, R54, R62; string scans do not poll by
decision D10 of the spec, the fetch does by D24, the host writes no cell by D26, log entry 17; turns: log
entry 12). That a fatal condition changes no cell is decision D14 of the spec, log entry 17. -/
def Obligations.MemoryChangesOnlyByStoreOrPoll : Prop :=
  ∀ (s t : State) (a : Word), step s = .next t → t.cell a ≠ s.cell a →
    s.Ready ∧ ∃ (later : List Turn) (i : Instr) (u : State), CoreTurn s later ∧
      i = decode s.params (fetch (s.setPlan later)).1 ∧ u = (fetch (s.setPlan later)).2 ∧
      (i.storeAddr u = some a ∨
        ((a = s.params.kbsrAddr ∨ a = s.params.kbdrAddr) ∧
          (s.pc = s.params.kbsrAddr ∨ s.params.kbsrAddr ∈ i.readAddrs u)))

/-! ### Reset and loading -/

/-- The state right after reset: every register 0, `pc` at the entry address, `cond` the parameter
`COND_RESET`, by default no flag, running, no record, every cell 0, no output (R8, R40; the default of
`COND_RESET`: log entry 6; between steps: log entry 10; the host's queue and plan are not stated). -/
def Obligations.ResetValues : Prop :=
  (∀ p : Params, (∀ r, (State.resetWith p).reg r = 0#16) ∧ (State.resetWith p).pc = 0x3000#16 ∧
    (State.resetWith p).cond = p.condReset ∧ (State.resetWith p).running = true ∧
    (State.resetWith p).fault = none ∧ (∀ a, (State.resetWith p).cell a = 0#16) ∧
    (State.resetWith p).out = [] ∧ (State.resetWith p).Ready ∧ (State.resetWith p).params = p) ∧
  State.reset = State.resetWith Params.default ∧ State.reset.cond = 0#16

/-- `Load`: with at least two bytes the words after the origin word go to the cells from the origin on,
first byte in bits 15:8, as many as the image has whole and the address space holds; every other cell keeps
its content and nothing else changes (R265, R266). A trailing odd byte is ignored: R267 says that this is
not stated, it is decision D22 of the spec, log entry 15. That the image is clamped and not wrapped at the
top of memory is the reading of conflicts C3 and C4 of the spec in R266. -/
def Obligations.LoadStoresTheImage : Prop :=
  ∀ (hi lo : Byte) (rest : List Byte) (s : State), ∃ t, load (hi :: lo :: rest) s = some t ∧
    (∀ k, k < min (rest.length / 2) (65536 - (hi.toNat * 256 + lo.toNat)) →
      t.cell (BitVec.ofNat 16 (hi.toNat * 256 + lo.toNat + k)) =
        BitVec.ofNat 16 ((rest.getD (2 * k) 0#8).toNat * 256 + (rest.getD (2 * k + 1) 0#8).toNat)) ∧
    (∀ a : Word,
      (a.toNat < hi.toNat * 256 + lo.toNat ∨ hi.toNat * 256 + lo.toNat +
        min (rest.length / 2) (65536 - (hi.toNat * 256 + lo.toNat)) ≤ a.toNat) →
      t.cell a = s.cell a) ∧
    SameRegsBut [] s t ∧ t.cond = s.cond ∧ t.pc = s.pc ∧ SameHost s t ∧ SameControl s t

/-- An image of fewer than two bytes does not load (R267; decision D22 of the spec, log entry 15). -/
def Obligations.ShortImageFailsToLoad : Prop :=
  ∀ s : State, load [] s = none ∧ ∀ b, load [b] s = none

/-- Whatever images were loaded, whatever their origins, the run begins at 0x3000: the first fetch is a read
of the cell there (R261), whose stored word it gives unless the parameters put the status cell there. The
core is ready for it: running and no fault by R262 and R40, between steps by log entry 10. What `State.boot`
is: log entries 12, 14, 15 and 20. That the fetch is a read through the memory interface is decision D24 of
the spec, log entry 17. -/
def Obligations.RunBeginsAtEntryAddress : Prop :=
  ∀ (p : Params) (images : List (List Byte)) (inq : List Byte) (plan : List Turn) (s : State),
    State.boot p images inq plan = some s →
    s.pc = 0x3000#16 ∧ s.Ready ∧ s.params = p ∧ (fetch s).1 = (memRead 0x3000#16 s).1 ∧
    (p.kbsrAddr ≠ 0x3000#16 → (fetch s).1 = s.cell 0x3000#16)
end

