-- ==== Sys2Proof/Laws/Decode.lean ====
section
/-! SUPPORT. Registers and their indices; fields put into a word and read back; what the decoder answers
for each opcode (spec/30_encoding.md R81 to R88). -/

namespace Sys2Proof

@[simp] theorem Reg.ofBits_toBits (r : Reg) : Reg.ofBits r.toBits = r := by cases r <;> rfl

@[simp] theorem Reg.toBits_ofBits (b : BitVec 3) : (Reg.ofBits b).toBits = b := by
  revert b; decide

/-! ### A word and its fields -/

theorem getLsbD_fieldAt (lo n : Nat) (w : Word) (i : Nat) :
    (fieldAt lo n w).getLsbD i = (decide (i < n) && w.getLsbD (lo + i)) :=
  BitVec.getLsbD_extractLsb' ..

/-- Bit `i` of a placed field: the field's bit, inside the field. -/
theorem getLsbD_placed (f : Field) (i : Nat) :
    f.placed.getLsbD i = (decide (f.lo ≤ i ∧ i < 16) && f.bits.getLsbD (i - f.lo)) := by
  simp only [Field.placed, BitVec.getLsbD_shiftLeft, BitVec.getLsbD_setWidth]
  by_cases h2 : i < 16
  · by_cases h1 : f.lo ≤ i <;> simp [h1, h2, show i - f.lo < 16 by omega]
  · simp [h2]

/-- A placed field is 0 outside the field. -/
theorem getLsbD_placed_outside {f : Field} {i : Nat} (h : i < f.lo ∨ f.lo + f.width ≤ i) :
    f.placed.getLsbD i = false := by
  rw [getLsbD_placed]
  by_cases h1 : f.lo ≤ i
  · rw [BitVec.getLsbD_of_ge f.bits (i - f.lo) (by omega), Bool.and_false]
  · simp [h1]

/-- Reading back a field of a word whose fields fit gives its content. -/
theorem fieldAt_pack {fs : List Field} (hf : FieldsFit fs) {f : Field} (hm : f ∈ fs) :
    fieldAt f.lo f.width (pack fs) = f.bits := by
  obtain ⟨hin, hd⟩ := hf
  induction fs with
  | nil => cases hm
  | cons g fs ih =>
    rw [List.pairwise_cons] at hd
    have rest : ∀ (gs : List Field) (i : Nat), (∀ g ∈ gs, i < g.lo ∨ g.lo + g.width ≤ i) →
        (pack gs).getLsbD i = false := by
      intro gs i h
      induction gs with
      | nil => simp [pack]
      | cons g gs ihg =>
        rw [pack, BitVec.getLsbD_or, getLsbD_placed_outside (h g (List.mem_cons_self ..)),
          ihg fun g' hg' => h g' (List.mem_cons_of_mem _ hg'), Bool.or_false]
    rcases List.mem_cons.mp hm with rfl | hm'
    · refine BitVec.eq_of_getLsbD_eq fun i hi => ?_
      have hw := hin f (List.mem_cons_self ..)
      rw [getLsbD_fieldAt, pack, BitVec.getLsbD_or, getLsbD_placed,
        rest fs (f.lo + i) fun g hg => by have := hd.1 g hg; omega]
      simp [hi, show f.lo + i < 16 by omega]
    · rw [← ih hm' (fun f hf => hin f (List.mem_cons_of_mem _ hf)) hd.2]
      refine BitVec.eq_of_getLsbD_eq fun i hi => ?_
      have := hd.1 f hm'
      rw [getLsbD_fieldAt, getLsbD_fieldAt, pack, BitVec.getLsbD_or,
        getLsbD_placed_outside (by omega), Bool.false_or]

/-- The bits fields take up do not depend on their content. -/
theorem spanned_congr {fs gs : List Field}
    (h : fs.map (fun f => (f.lo, f.width)) = gs.map (fun f => (f.lo, f.width))) :
    spanned fs = spanned gs := by
  induction fs generalizing gs with
  | nil => cases gs with
    | nil => rfl
    | cons => simp at h
  | cons f fs ih => cases gs with
    | nil => simp at h
    | cons g gs =>
      obtain ⟨lo, n, b⟩ := f
      obtain ⟨lo', n', b'⟩ := g
      simp only [List.map_cons, List.cons.injEq, Prod.mk.injEq] at h
      obtain ⟨⟨rfl, rfl⟩, h⟩ := h
      rw [spanned, spanned, ih h]

/-- A word put together from its own fields: its bits that the fields take up. -/
theorem pack_fieldAt {w : Word} {fs : List Field} (h : ∀ f ∈ fs, f.bits = fieldAt f.lo f.width w) :
    pack fs = w &&& spanned fs := by
  induction fs with
  | nil => simp [pack, spanned]
  | cons f fs ih =>
    refine BitVec.eq_of_getLsbD_eq fun i hi => ?_
    rw [pack, spanned, BitVec.getLsbD_or, ih fun f hf => h f (List.mem_cons_of_mem _ hf),
      BitVec.getLsbD_and, BitVec.getLsbD_and, BitVec.getLsbD_or, getLsbD_placed, getLsbD_placed,
      h f (List.mem_cons_self ..), getLsbD_fieldAt, BitVec.getLsbD_allOnes]
    by_cases hl : f.lo ≤ i
    · simp only [show f.lo + (i - f.lo) = i by omega, hl, hi]
      cases w.getLsbD i <;> simp
    · simp [hl]

/-- Words that agree on the bits of a field have the same field. -/
theorem fieldAt_congr {v w : Word} {fs : List Field} (h : v &&& spanned fs = w &&& spanned fs)
    {f : Field} (hm : f ∈ fs) : fieldAt f.lo f.width v = fieldAt f.lo f.width w := by
  refine BitVec.eq_of_getLsbD_eq fun i hi => ?_
  rw [getLsbD_fieldAt, getLsbD_fieldAt]
  by_cases hr : f.lo + i < 16
  · have hs : (spanned fs).getLsbD (f.lo + i) = true := by
      clear h
      induction fs with
      | nil => cases hm
      | cons g fs ih =>
        rw [spanned, BitVec.getLsbD_or]
        rcases List.mem_cons.mp hm with rfl | hm'
        · rw [getLsbD_placed]; simp [hr, hi]
        · rw [ih hm', Bool.or_true]
    have hb := congrArg (fun u => BitVec.getLsbD u (f.lo + i)) h
    simp only [BitVec.getLsbD_and, hs, Bool.and_true] at hb
    rw [hb]
  · rw [BitVec.getLsbD_of_ge v _ (by omega), BitVec.getLsbD_of_ge w _ (by omega)]

/-- A register field holds the register's index. -/
theorem regAt_of_fieldAt {lo : Nat} {r : Reg} {w : Word} (h : fieldAt lo 3 w = r.toBits) :
    regAt lo w = r := by
  rw [regAt, h, Reg.ofBits_toBits]

/-- The fields of an instruction fit, whatever they hold. -/
theorem Instr.fields_fit {p : Params} (h : p.lay.Ok) (i : Instr) : FieldsFit (i.fields p) := by
  obtain ⟨h1, h2, h3, h4, h5, h6, h7, h8, h9, h10, h11⟩ := h
  cases i
  case addReg | andReg => simpa [FieldsFit, Instr.fields, formatRRR, regField, opField] using h1
  case addImm | andImm => simpa [FieldsFit, Instr.fields, formatRRI, regField, opField] using h2
  case not => simpa [FieldsFit, Instr.fields, formatRR, regField, opField] using h3
  case br => simpa [FieldsFit, Instr.fields, formatBR, regField, opField] using h4
  case jmp => simpa [FieldsFit, Instr.fields, formatR, regField, opField] using h5
  case jsr => simpa [FieldsFit, Instr.fields, formatJ, regField, opField] using h6
  case jsrr => simpa [FieldsFit, Instr.fields, formatJR, regField, opField] using h7
  case ld | ldi | lea => simpa [FieldsFit, Instr.fields, formatM9, regField, opField] using h8
  case st | sti => simpa [FieldsFit, Instr.fields, formatM9, regField, opField] using h9
  case ldr => simpa [FieldsFit, Instr.fields, formatM6, regField, opField] using h10
  case str => simpa [FieldsFit, Instr.fields, formatM6, regField, opField] using h11
  all_goals simp [FieldsFit, Instr.fields, formatT, formatX, opField]

/-- Reading back a field of an instruction's word. -/
theorem fieldAt_encode {p : Params} (h : p.lay.Ok) (i : Instr) {f : Field} (hm : f ∈ i.fields p) :
    fieldAt f.lo f.width (encode p i) = f.bits := fieldAt_pack (i.fields_fit h) hm

/-! ### What the decoder answers for each opcode (R85, R86) -/

variable {p : Params} {w : Word}

theorem decode_br (h : fieldOpcode w = p.opcBr) :
    decode p w = .br (fieldAt p.lay.nzp 3 w) (fieldAt p.lay.off9 9 w) := by
  simp [decode, h]

theorem decode_addImm (hp : p.opcodes.Nodup) (h : fieldOpcode w = p.opcAdd) (hm : fieldMode w = 1#1) :
    decode p w = .addImm (regAt p.lay.dr w) (regAt p.lay.sr1 w) (fieldAt p.lay.imm5 5 w) := by
  simp only [Params.opcodes, List.nodup_cons, List.mem_cons, not_or] at hp
  simp [decode, h, hm, eq_comm, hp]

theorem decode_addReg (hp : p.opcodes.Nodup) (h : fieldOpcode w = p.opcAdd) (hm : fieldMode w ≠ 1#1) :
    decode p w = .addReg (regAt p.lay.dr w) (regAt p.lay.sr1 w) (regAt p.lay.sr2 w) := by
  simp only [Params.opcodes, List.nodup_cons, List.mem_cons, not_or] at hp
  simp [decode, h, hm, eq_comm, hp]

theorem decode_ld (hp : p.opcodes.Nodup) (h : fieldOpcode w = p.opcLd) :
    decode p w = .ld (regAt p.lay.dr w) (fieldAt p.lay.off9 9 w) := by
  simp only [Params.opcodes, List.nodup_cons, List.mem_cons, not_or] at hp
  simp [decode, h, eq_comm, hp]

theorem decode_st (hp : p.opcodes.Nodup) (h : fieldOpcode w = p.opcSt) :
    decode p w = .st (regAt p.lay.srStore w) (fieldAt p.lay.off9 9 w) := by
  simp only [Params.opcodes, List.nodup_cons, List.mem_cons, not_or] at hp
  simp [decode, h, eq_comm, hp]

theorem decode_jsr (hp : p.opcodes.Nodup) (h : fieldOpcode w = p.opcJsr) (hm : fieldJsr w = 1#1) :
    decode p w = .jsr (fieldAt p.lay.off11 11 w) := by
  simp only [Params.opcodes, List.nodup_cons, List.mem_cons, not_or] at hp
  simp [decode, h, hm, eq_comm, hp]

theorem decode_jsrr (hp : p.opcodes.Nodup) (h : fieldOpcode w = p.opcJsr) (hm : fieldJsr w ≠ 1#1) :
    decode p w = .jsrr (regAt p.lay.baseR w) := by
  simp only [Params.opcodes, List.nodup_cons, List.mem_cons, not_or] at hp
  simp [decode, h, hm, eq_comm, hp]

theorem decode_andImm (hp : p.opcodes.Nodup) (h : fieldOpcode w = p.opcAnd) (hm : fieldMode w = 1#1) :
    decode p w = .andImm (regAt p.lay.dr w) (regAt p.lay.sr1 w) (fieldAt p.lay.imm5 5 w) := by
  simp only [Params.opcodes, List.nodup_cons, List.mem_cons, not_or] at hp
  simp [decode, h, hm, eq_comm, hp]

theorem decode_andReg (hp : p.opcodes.Nodup) (h : fieldOpcode w = p.opcAnd) (hm : fieldMode w ≠ 1#1) :
    decode p w = .andReg (regAt p.lay.dr w) (regAt p.lay.sr1 w) (regAt p.lay.sr2 w) := by
  simp only [Params.opcodes, List.nodup_cons, List.mem_cons, not_or] at hp
  simp [decode, h, hm, eq_comm, hp]

theorem decode_ldr (hp : p.opcodes.Nodup) (h : fieldOpcode w = p.opcLdr) :
    decode p w = .ldr (regAt p.lay.dr w) (regAt p.lay.baseR w) (fieldAt p.lay.off6 6 w) := by
  simp only [Params.opcodes, List.nodup_cons, List.mem_cons, not_or] at hp
  simp [decode, h, eq_comm, hp]

theorem decode_str (hp : p.opcodes.Nodup) (h : fieldOpcode w = p.opcStr) :
    decode p w = .str (regAt p.lay.srStore w) (regAt p.lay.baseR w) (fieldAt p.lay.off6 6 w) := by
  simp only [Params.opcodes, List.nodup_cons, List.mem_cons, not_or] at hp
  simp [decode, h, eq_comm, hp]

theorem decode_rsvA (hp : p.opcodes.Nodup) (h : fieldOpcode w = p.opcRsvA) :
    decode p w = .reservedA (fieldLow12 w) := by
  simp only [Params.opcodes, List.nodup_cons, List.mem_cons, not_or] at hp
  simp [decode, h, eq_comm, hp]

theorem decode_not (hp : p.opcodes.Nodup) (h : fieldOpcode w = p.opcNot) :
    decode p w = .not (regAt p.lay.dr w) (regAt p.lay.srNot w) := by
  simp only [Params.opcodes, List.nodup_cons, List.mem_cons, not_or] at hp
  simp [decode, h, eq_comm, hp]

theorem decode_ldi (hp : p.opcodes.Nodup) (h : fieldOpcode w = p.opcLdi) :
    decode p w = .ldi (regAt p.lay.dr w) (fieldAt p.lay.off9 9 w) := by
  simp only [Params.opcodes, List.nodup_cons, List.mem_cons, not_or] at hp
  simp [decode, h, eq_comm, hp]

theorem decode_sti (hp : p.opcodes.Nodup) (h : fieldOpcode w = p.opcSti) :
    decode p w = .sti (regAt p.lay.srStore w) (fieldAt p.lay.off9 9 w) := by
  simp only [Params.opcodes, List.nodup_cons, List.mem_cons, not_or] at hp
  simp [decode, h, eq_comm, hp]

theorem decode_jmp (hp : p.opcodes.Nodup) (h : fieldOpcode w = p.opcJmp) :
    decode p w = .jmp (regAt p.lay.baseR w) := by
  simp only [Params.opcodes, List.nodup_cons, List.mem_cons, not_or] at hp
  simp [decode, h, eq_comm, hp]

theorem decode_rsvB (hp : p.opcodes.Nodup) (h : fieldOpcode w = p.opcRsvB) :
    decode p w = .reservedB (fieldLow12 w) := by
  simp only [Params.opcodes, List.nodup_cons, List.mem_cons, not_or] at hp
  simp [decode, h, eq_comm, hp]

theorem decode_lea (hp : p.opcodes.Nodup) (h : fieldOpcode w = p.opcLea) :
    decode p w = .lea (regAt p.lay.dr w) (fieldAt p.lay.off9 9 w) := by
  simp only [Params.opcodes, List.nodup_cons, List.mem_cons, not_or] at hp
  simp [decode, h, eq_comm, hp]

theorem decode_trap (hp : p.opcodes.Nodup) (h : fieldOpcode w = p.opcTrap) :
    decode p w = decodeTrap (fieldVec w) := by
  simp only [Params.opcodes, List.nodup_cons, List.mem_cons, not_or] at hp
  simp [decode, h, eq_comm, hp]

/-- The opcode field has one of the sixteen numbers (R85): sixteen distinct ones are all there are. -/
theorem fieldOpcode_mem (hp : p.opcodes.Nodup) (w : Word) : fieldOpcode w ∈ p.opcodes := by
  have hc : p.opcodes.toFinset.card = Fintype.card (BitVec 4) := by
    rw [List.toFinset_card_of_nodup hp]; rfl
  rw [← List.mem_toFinset, Finset.card_eq_iff_eq_univ _ |>.mp hc]
  exact Finset.mem_univ _

/-- TRAP's second level: the vector is encoded back, whatever row it selects (R86). -/
theorem fields_decodeTrap (p : Params) (v : BitVec 8) :
    (decodeTrap v).fields p = formatT p.opcTrap v := by
  unfold decodeTrap
  repeat' split
  all_goals simp_all [Instr.fields]

end Sys2Proof
end

