-- ==== Sys2Proof/Laws/State.lean ====
section
/-! SUPPORT. One lemma per field per named update of State, true by rfl, so that no proof unfolds a record
update. -/

namespace Sys2Proof.Machine

variable (s : State)

/-! setReg -/
@[simp] theorem setReg_params (r : Reg) (v : Word) : (s.setReg r v).params = s.params := rfl
@[simp] theorem setReg_regs (r : Reg) (v : Word) : (s.setReg r v).regs = s.regs.set r v := rfl
@[simp] theorem setReg_pc (r : Reg) (v : Word) : (s.setReg r v).pc = s.pc := rfl
@[simp] theorem setReg_cond (r : Reg) (v : Word) : (s.setReg r v).cond = s.cond := rfl
@[simp] theorem setReg_running (r : Reg) (v : Word) : (s.setReg r v).running = s.running := rfl
@[simp] theorem setReg_fault (r : Reg) (v : Word) : (s.setReg r v).fault = s.fault := rfl
@[simp] theorem setReg_stopped (r : Reg) (v : Word) : (s.setReg r v).stopped = s.stopped := rfl
@[simp] theorem setReg_mem (r : Reg) (v : Word) : (s.setReg r v).mem = s.mem := rfl
@[simp] theorem setReg_inq (r : Reg) (v : Word) : (s.setReg r v).inq = s.inq := rfl
@[simp] theorem setReg_out (r : Reg) (v : Word) : (s.setReg r v).out = s.out := rfl
@[simp] theorem setReg_phase (r : Reg) (v : Word) : (s.setReg r v).phase = s.phase := rfl
@[simp] theorem setReg_plan (r : Reg) (v : Word) : (s.setReg r v).plan = s.plan := rfl

/-! setPc -/
@[simp] theorem setPc_params (v : Word) : (s.setPc v).params = s.params := rfl
@[simp] theorem setPc_regs (v : Word) : (s.setPc v).regs = s.regs := rfl
@[simp] theorem setPc_pc (v : Word) : (s.setPc v).pc = v := rfl
@[simp] theorem setPc_cond (v : Word) : (s.setPc v).cond = s.cond := rfl
@[simp] theorem setPc_running (v : Word) : (s.setPc v).running = s.running := rfl
@[simp] theorem setPc_fault (v : Word) : (s.setPc v).fault = s.fault := rfl
@[simp] theorem setPc_stopped (v : Word) : (s.setPc v).stopped = s.stopped := rfl
@[simp] theorem setPc_mem (v : Word) : (s.setPc v).mem = s.mem := rfl
@[simp] theorem setPc_inq (v : Word) : (s.setPc v).inq = s.inq := rfl
@[simp] theorem setPc_out (v : Word) : (s.setPc v).out = s.out := rfl
@[simp] theorem setPc_phase (v : Word) : (s.setPc v).phase = s.phase := rfl
@[simp] theorem setPc_plan (v : Word) : (s.setPc v).plan = s.plan := rfl

/-! setCond -/
@[simp] theorem setCond_params (v : Word) : (s.setCond v).params = s.params := rfl
@[simp] theorem setCond_regs (v : Word) : (s.setCond v).regs = s.regs := rfl
@[simp] theorem setCond_pc (v : Word) : (s.setCond v).pc = s.pc := rfl
@[simp] theorem setCond_cond (v : Word) : (s.setCond v).cond = v := rfl
@[simp] theorem setCond_running (v : Word) : (s.setCond v).running = s.running := rfl
@[simp] theorem setCond_fault (v : Word) : (s.setCond v).fault = s.fault := rfl
@[simp] theorem setCond_stopped (v : Word) : (s.setCond v).stopped = s.stopped := rfl
@[simp] theorem setCond_mem (v : Word) : (s.setCond v).mem = s.mem := rfl
@[simp] theorem setCond_inq (v : Word) : (s.setCond v).inq = s.inq := rfl
@[simp] theorem setCond_out (v : Word) : (s.setCond v).out = s.out := rfl
@[simp] theorem setCond_phase (v : Word) : (s.setCond v).phase = s.phase := rfl
@[simp] theorem setCond_plan (v : Word) : (s.setCond v).plan = s.plan := rfl

/-! setPhase -/
@[simp] theorem setPhase_params (p : Phase) : (s.setPhase p).params = s.params := rfl
@[simp] theorem setPhase_regs (p : Phase) : (s.setPhase p).regs = s.regs := rfl
@[simp] theorem setPhase_pc (p : Phase) : (s.setPhase p).pc = s.pc := rfl
@[simp] theorem setPhase_cond (p : Phase) : (s.setPhase p).cond = s.cond := rfl
@[simp] theorem setPhase_running (p : Phase) : (s.setPhase p).running = s.running := rfl
@[simp] theorem setPhase_fault (p : Phase) : (s.setPhase p).fault = s.fault := rfl
@[simp] theorem setPhase_stopped (p : Phase) : (s.setPhase p).stopped = s.stopped := rfl
@[simp] theorem setPhase_mem (p : Phase) : (s.setPhase p).mem = s.mem := rfl
@[simp] theorem setPhase_inq (p : Phase) : (s.setPhase p).inq = s.inq := rfl
@[simp] theorem setPhase_out (p : Phase) : (s.setPhase p).out = s.out := rfl
@[simp] theorem setPhase_phase (p : Phase) : (s.setPhase p).phase = p := rfl
@[simp] theorem setPhase_plan (p : Phase) : (s.setPhase p).plan = s.plan := rfl

/-! setCell -/
@[simp] theorem setCell_params (a v : Word) : (s.setCell a v).params = s.params := rfl
@[simp] theorem setCell_regs (a v : Word) : (s.setCell a v).regs = s.regs := rfl
@[simp] theorem setCell_pc (a v : Word) : (s.setCell a v).pc = s.pc := rfl
@[simp] theorem setCell_cond (a v : Word) : (s.setCell a v).cond = s.cond := rfl
@[simp] theorem setCell_running (a v : Word) : (s.setCell a v).running = s.running := rfl
@[simp] theorem setCell_fault (a v : Word) : (s.setCell a v).fault = s.fault := rfl
@[simp] theorem setCell_stopped (a v : Word) : (s.setCell a v).stopped = s.stopped := rfl
@[simp] theorem setCell_mem (a v : Word) : (s.setCell a v).mem = s.mem.writeCell a.toNat v := rfl
@[simp] theorem setCell_inq (a v : Word) : (s.setCell a v).inq = s.inq := rfl
@[simp] theorem setCell_out (a v : Word) : (s.setCell a v).out = s.out := rfl
@[simp] theorem setCell_phase (a v : Word) : (s.setCell a v).phase = s.phase := rfl
@[simp] theorem setCell_plan (a v : Word) : (s.setCell a v).plan = s.plan := rfl

/-! outWrite -/
@[simp] theorem outWrite_params (bs : List Byte) : (s.outWrite bs).params = s.params := rfl
@[simp] theorem outWrite_regs (bs : List Byte) : (s.outWrite bs).regs = s.regs := rfl
@[simp] theorem outWrite_pc (bs : List Byte) : (s.outWrite bs).pc = s.pc := rfl
@[simp] theorem outWrite_cond (bs : List Byte) : (s.outWrite bs).cond = s.cond := rfl
@[simp] theorem outWrite_running (bs : List Byte) : (s.outWrite bs).running = s.running := rfl
@[simp] theorem outWrite_fault (bs : List Byte) : (s.outWrite bs).fault = s.fault := rfl
@[simp] theorem outWrite_stopped (bs : List Byte) : (s.outWrite bs).stopped = s.stopped := rfl
@[simp] theorem outWrite_mem (bs : List Byte) : (s.outWrite bs).mem = s.mem := rfl
@[simp] theorem outWrite_inq (bs : List Byte) : (s.outWrite bs).inq = s.inq := rfl
@[simp] theorem outWrite_out (bs : List Byte) : (s.outWrite bs).out = s.out ++ bs := rfl
@[simp] theorem outWrite_phase (bs : List Byte) : (s.outWrite bs).phase = s.phase := rfl
@[simp] theorem outWrite_plan (bs : List Byte) : (s.outWrite bs).plan = s.plan := rfl

/-! raiseFatal -/
@[simp] theorem raiseFatal_params (f : Fatal) : (raiseFatal f s).params = s.params := rfl
@[simp] theorem raiseFatal_regs (f : Fatal) : (raiseFatal f s).regs = s.regs := rfl
@[simp] theorem raiseFatal_pc (f : Fatal) : (raiseFatal f s).pc = s.pc := rfl
@[simp] theorem raiseFatal_cond (f : Fatal) : (raiseFatal f s).cond = s.cond := rfl
@[simp] theorem raiseFatal_running (f : Fatal) : (raiseFatal f s).running = false := rfl
@[simp] theorem raiseFatal_fault (f : Fatal) : (raiseFatal f s).fault = some f := rfl
@[simp] theorem raiseFatal_stopped (f : Fatal) : (raiseFatal f s).stopped = s.stopped := rfl
@[simp] theorem raiseFatal_mem (f : Fatal) : (raiseFatal f s).mem = s.mem := rfl
@[simp] theorem raiseFatal_inq (f : Fatal) : (raiseFatal f s).inq = s.inq := rfl
@[simp] theorem raiseFatal_out (f : Fatal) : (raiseFatal f s).out = s.out := rfl
@[simp] theorem raiseFatal_phase (f : Fatal) : (raiseFatal f s).phase = s.phase := rfl
@[simp] theorem raiseFatal_plan (f : Fatal) : (raiseFatal f s).plan = s.plan := rfl

/-! hostAppend -/
@[simp] theorem hostAppend_params (b : Byte) : (hostAppend b s).params = s.params := rfl
@[simp] theorem hostAppend_regs (b : Byte) : (hostAppend b s).regs = s.regs := rfl
@[simp] theorem hostAppend_pc (b : Byte) : (hostAppend b s).pc = s.pc := rfl
@[simp] theorem hostAppend_cond (b : Byte) : (hostAppend b s).cond = s.cond := rfl
@[simp] theorem hostAppend_running (b : Byte) : (hostAppend b s).running = s.running := rfl
@[simp] theorem hostAppend_fault (b : Byte) : (hostAppend b s).fault = s.fault := rfl
@[simp] theorem hostAppend_stopped (b : Byte) : (hostAppend b s).stopped = s.stopped := rfl
@[simp] theorem hostAppend_mem (b : Byte) : (hostAppend b s).mem = s.mem := rfl
@[simp] theorem hostAppend_inq (b : Byte) : (hostAppend b s).inq = s.inq ++ [b] := rfl
@[simp] theorem hostAppend_out (b : Byte) : (hostAppend b s).out = s.out := rfl
@[simp] theorem hostAppend_phase (b : Byte) : (hostAppend b s).phase = s.phase := rfl
@[simp] theorem hostAppend_plan (b : Byte) : (hostAppend b s).plan = s.plan := rfl

/-! setRunning -/
@[simp] theorem setRunning_params (b : Bool) : (s.setRunning b).params = s.params := rfl
@[simp] theorem setRunning_regs (b : Bool) : (s.setRunning b).regs = s.regs := rfl
@[simp] theorem setRunning_pc (b : Bool) : (s.setRunning b).pc = s.pc := rfl
@[simp] theorem setRunning_cond (b : Bool) : (s.setRunning b).cond = s.cond := rfl
@[simp] theorem setRunning_running (b : Bool) : (s.setRunning b).running = b := rfl
@[simp] theorem setRunning_fault (b : Bool) : (s.setRunning b).fault = s.fault := rfl
@[simp] theorem setRunning_stopped (b : Bool) : (s.setRunning b).stopped = s.stopped := rfl
@[simp] theorem setRunning_mem (b : Bool) : (s.setRunning b).mem = s.mem := rfl
@[simp] theorem setRunning_inq (b : Bool) : (s.setRunning b).inq = s.inq := rfl
@[simp] theorem setRunning_out (b : Bool) : (s.setRunning b).out = s.out := rfl
@[simp] theorem setRunning_phase (b : Bool) : (s.setRunning b).phase = s.phase := rfl
@[simp] theorem setRunning_plan (b : Bool) : (s.setRunning b).plan = s.plan := rfl

/-! setInq -/
@[simp] theorem setInq_params (q : List Byte) : (s.setInq q).params = s.params := rfl
@[simp] theorem setInq_regs (q : List Byte) : (s.setInq q).regs = s.regs := rfl
@[simp] theorem setInq_pc (q : List Byte) : (s.setInq q).pc = s.pc := rfl
@[simp] theorem setInq_cond (q : List Byte) : (s.setInq q).cond = s.cond := rfl
@[simp] theorem setInq_running (q : List Byte) : (s.setInq q).running = s.running := rfl
@[simp] theorem setInq_fault (q : List Byte) : (s.setInq q).fault = s.fault := rfl
@[simp] theorem setInq_stopped (q : List Byte) : (s.setInq q).stopped = s.stopped := rfl
@[simp] theorem setInq_mem (q : List Byte) : (s.setInq q).mem = s.mem := rfl
@[simp] theorem setInq_inq (q : List Byte) : (s.setInq q).inq = q := rfl
@[simp] theorem setInq_out (q : List Byte) : (s.setInq q).out = s.out := rfl
@[simp] theorem setInq_phase (q : List Byte) : (s.setInq q).phase = s.phase := rfl
@[simp] theorem setInq_plan (q : List Byte) : (s.setInq q).plan = s.plan := rfl

/-! setPlan -/
@[simp] theorem setPlan_params (p : List Turn) : (s.setPlan p).params = s.params := rfl
@[simp] theorem setPlan_regs (p : List Turn) : (s.setPlan p).regs = s.regs := rfl
@[simp] theorem setPlan_pc (p : List Turn) : (s.setPlan p).pc = s.pc := rfl
@[simp] theorem setPlan_cond (p : List Turn) : (s.setPlan p).cond = s.cond := rfl
@[simp] theorem setPlan_running (p : List Turn) : (s.setPlan p).running = s.running := rfl
@[simp] theorem setPlan_fault (p : List Turn) : (s.setPlan p).fault = s.fault := rfl
@[simp] theorem setPlan_stopped (p : List Turn) : (s.setPlan p).stopped = s.stopped := rfl
@[simp] theorem setPlan_mem (p : List Turn) : (s.setPlan p).mem = s.mem := rfl
@[simp] theorem setPlan_inq (p : List Turn) : (s.setPlan p).inq = s.inq := rfl
@[simp] theorem setPlan_out (p : List Turn) : (s.setPlan p).out = s.out := rfl
@[simp] theorem setPlan_phase (p : List Turn) : (s.setPlan p).phase = s.phase := rfl
@[simp] theorem setPlan_plan (p : List Turn) : (s.setPlan p).plan = p := rfl

/-! arrive -/

/-- With a turn `during` to come its bytes arrive and the turn is used up. -/
theorem arrive_during {s : State} {bs : List Byte} {rest : List Turn} (h : s.plan = .during bs :: rest) :
    arrive s = { s with inq := s.inq ++ bs, plan := rest } := by
  simp [arrive, h]

/-- With another turn, or none, to come nothing arrives. -/
theorem arrive_other {s : State} (h : ∀ bs rest, s.plan ≠ .during bs :: rest) : arrive s = s := by
  unfold arrive
  split
  · exact absurd ‹_› (h _ _)
  all_goals rfl

/-- What arrives are bytes at the end of the queue, named by the turns used up. -/
theorem arrive_cases (s : State) :
    (∃ bs rest, s.plan = .during bs :: rest ∧ arrive s = { s with inq := s.inq ++ bs, plan := rest }) ∨
    arrive s = s := by
  by_cases h : ∃ bs rest, s.plan = .during bs :: rest
  · obtain ⟨bs, rest, h⟩ := h
    exact .inl ⟨bs, rest, h, arrive_during h⟩
  · exact .inr (arrive_other fun bs rest hp => h ⟨bs, rest, hp⟩)

@[simp] theorem arrive_params : (arrive s).params = s.params := by
  rcases arrive_cases s with ⟨_, _, _, h⟩ | h <;> rw [h]
@[simp] theorem arrive_regs : (arrive s).regs = s.regs := by
  rcases arrive_cases s with ⟨_, _, _, h⟩ | h <;> rw [h]
@[simp] theorem arrive_pc : (arrive s).pc = s.pc := by
  rcases arrive_cases s with ⟨_, _, _, h⟩ | h <;> rw [h]
@[simp] theorem arrive_cond : (arrive s).cond = s.cond := by
  rcases arrive_cases s with ⟨_, _, _, h⟩ | h <;> rw [h]
@[simp] theorem arrive_running : (arrive s).running = s.running := by
  rcases arrive_cases s with ⟨_, _, _, h⟩ | h <;> rw [h]
@[simp] theorem arrive_fault : (arrive s).fault = s.fault := by
  rcases arrive_cases s with ⟨_, _, _, h⟩ | h <;> rw [h]
@[simp] theorem arrive_stopped : (arrive s).stopped = s.stopped := by
  rcases arrive_cases s with ⟨_, _, _, h⟩ | h <;> rw [h]
@[simp] theorem arrive_mem : (arrive s).mem = s.mem := by
  rcases arrive_cases s with ⟨_, _, _, h⟩ | h <;> rw [h]
@[simp] theorem arrive_out : (arrive s).out = s.out := by
  rcases arrive_cases s with ⟨_, _, _, h⟩ | h <;> rw [h]
@[simp] theorem arrive_phase : (arrive s).phase = s.phase := by
  rcases arrive_cases s with ⟨_, _, _, h⟩ | h <;> rw [h]

@[simp] theorem arrive_setReg (r : Reg) (v : Word) : arrive (s.setReg r v) = (arrive s).setReg r v := by
  rcases hp : s.plan with _ | ⟨_ | _ | _ | _, _⟩ <;> simp [arrive, State.setReg, hp]
@[simp] theorem arrive_setPc (v : Word) : arrive (s.setPc v) = (arrive s).setPc v := by
  rcases hp : s.plan with _ | ⟨_ | _ | _ | _, _⟩ <;> simp [arrive, State.setPc, hp]
@[simp] theorem arrive_setCond (v : Word) : arrive (s.setCond v) = (arrive s).setCond v := by
  rcases hp : s.plan with _ | ⟨_ | _ | _ | _, _⟩ <;> simp [arrive, State.setCond, hp]
@[simp] theorem arrive_setCell (a v : Word) : arrive (s.setCell a v) = (arrive s).setCell a v := by
  rcases hp : s.plan with _ | ⟨_ | _ | _ | _, _⟩ <;> simp [arrive, State.setCell, hp]
@[simp] theorem arrive_outWrite (bs : List Byte) : arrive (s.outWrite bs) = (arrive s).outWrite bs := by
  rcases hp : s.plan with _ | ⟨_ | _ | _ | _, _⟩ <;> simp [arrive, State.outWrite, hp]

end Sys2Proof.Machine
end

