-- ==== Sys2Proof/Laws/Memory.lean ====
section
/-! SUPPORT. The laws of registers and cells: a read after a write, writes elsewhere, and that every
memory operation keeps the canonical form. They hold for every list, canonical or not. -/

namespace Sys2Proof.Machine

/-! ### Registers -/

theorem Regs.get_set (g : Regs) (r q : Reg) (v : Word) :
    (g.set r v).get q = if q = r then v else g.get q := by
  cases r <;> cases q <;> rfl

@[simp] theorem reg_setReg (s : State) (r q : Reg) (v : Word) :
    (s.setReg r v).reg q = if q = r then v else s.reg q := Regs.get_set s.regs r q v

/-- The registers are read from `regs` alone. -/
theorem reg_congr {s t : State} (h : t.regs = s.regs) (r : Reg) : t.reg r = s.reg r := by
  simp [State.reg, h]

/-- The cells are read from `mem` alone. -/
theorem cell_congr {s t : State} (h : t.mem = s.mem) (a : Word) : t.cell a = s.cell a := by
  simp [State.cell, h]

/-! ### The list of cells -/

theorem Memory.readCell_forgetCell (m : Memory) (a b : Nat) :
    (m.forgetCell a).readCell b = if b = a then 0#16 else m.readCell b := by
  induction m with
  | nil => simp [Memory.forgetCell, Memory.readCell]
  | cons c m ih =>
    obtain ⟨k, u⟩ := c
    simp only [Memory.forgetCell] at ih ⊢
    by_cases hk : k = a
    · subst hk
      by_cases hb : b = k <;> simp_all [Memory.readCell]
    · by_cases hb : b = k <;> simp_all [Memory.readCell]

theorem Memory.readCell_listCell (m : Memory) (a b : Nat) (v : Word) :
    (m.listCell a v).readCell b = if b = a then v else m.readCell b := by
  induction m with
  | nil => rfl
  | cons c m ih =>
    obtain ⟨k, u⟩ := c
    simp only [Memory.listCell]
    split
    · rfl
    · split
      · subst k
        by_cases hb : b = a <;> simp [Memory.readCell, hb]
      · by_cases hb : b = k
        · subst hb
          have : b ≠ a := fun h => by simp_all
          simp [Memory.readCell, this]
        · simp [Memory.readCell, hb, ih]

/-- A cell reads back what was written to it; every other cell reads as before. -/
theorem Memory.readCell_writeCell (m : Memory) (a b : Nat) (v : Word) :
    (m.writeCell a v).readCell b = if b = a then v else m.readCell b := by
  unfold Memory.writeCell
  split
  · simp_all [Memory.readCell_forgetCell]
  · exact Memory.readCell_listCell m a b v

@[simp] theorem cell_setCell (s : State) (a b v : Word) :
    (s.setCell a v).cell b = if b = a then v else s.cell b := by
  simp only [State.cell, setCell_mem, Memory.readCell_writeCell, BitVec.toNat_inj]

/-! ### Updates that touch neither -/

@[simp] theorem reg_setPc (s : State) (v : Word) (r : Reg) : (s.setPc v).reg r = s.reg r := rfl
@[simp] theorem cell_setPc (s : State) (v : Word) (a : Word) : (s.setPc v).cell a = s.cell a := rfl
@[simp] theorem reg_setCond (s : State) (v : Word) (r : Reg) : (s.setCond v).reg r = s.reg r := rfl
@[simp] theorem cell_setCond (s : State) (v : Word) (a : Word) : (s.setCond v).cell a = s.cell a := rfl
@[simp] theorem reg_setPhase (s : State) (p : Phase) (r : Reg) : (s.setPhase p).reg r = s.reg r := rfl
@[simp] theorem cell_setPhase (s : State) (p : Phase) (a : Word) : (s.setPhase p).cell a = s.cell a := rfl
@[simp] theorem reg_setRunning (s : State) (b : Bool) (r : Reg) : (s.setRunning b).reg r = s.reg r := rfl
@[simp] theorem cell_setRunning (s : State) (b : Bool) (a : Word) : (s.setRunning b).cell a = s.cell a := rfl
@[simp] theorem reg_setInq (s : State) (q : List Byte) (r : Reg) : (s.setInq q).reg r = s.reg r := rfl
@[simp] theorem cell_setInq (s : State) (q : List Byte) (a : Word) : (s.setInq q).cell a = s.cell a := rfl
@[simp] theorem reg_setPlan (s : State) (p : List Turn) (r : Reg) : (s.setPlan p).reg r = s.reg r := rfl
@[simp] theorem cell_setPlan (s : State) (p : List Turn) (a : Word) : (s.setPlan p).cell a = s.cell a := rfl
@[simp] theorem reg_outWrite (s : State) (bs : List Byte) (r : Reg) : (s.outWrite bs).reg r = s.reg r := rfl
@[simp] theorem cell_outWrite (s : State) (bs : List Byte) (a : Word) : (s.outWrite bs).cell a = s.cell a := rfl
@[simp] theorem reg_raiseFatal (s : State) (f : Fatal) (r : Reg) : (raiseFatal f s).reg r = s.reg r := rfl
@[simp] theorem cell_raiseFatal (s : State) (f : Fatal) (a : Word) : (raiseFatal f s).cell a = s.cell a := rfl
@[simp] theorem reg_arrive (s : State) (r : Reg) : (arrive s).reg r = s.reg r :=
  reg_congr (arrive_regs s) r
@[simp] theorem cell_arrive (s : State) (a : Word) : (arrive s).cell a = s.cell a :=
  cell_congr (arrive_mem s) a
@[simp] theorem reg_hostAppend (s : State) (b : Byte) (r : Reg) : (hostAppend b s).reg r = s.reg r := rfl
@[simp] theorem cell_hostAppend (s : State) (b : Byte) (a : Word) : (hostAppend b s).cell a = s.cell a := rfl
@[simp] theorem reg_setCell (s : State) (a v : Word) (r : Reg) : (s.setCell a v).reg r = s.reg r := rfl
@[simp] theorem cell_setReg (s : State) (r : Reg) (v : Word) (a : Word) : (s.setReg r v).cell a = s.cell a := rfl

/-! ### The canonical form -/

theorem Memory.wf_nil : Memory.wf [] := by simp [Memory.wf]

theorem Memory.wf_forgetCell {m : Memory} (h : m.wf) (a : Nat) : (m.forgetCell a).wf :=
  ⟨h.1.filter _, fun c hc => h.2 c (List.mem_of_mem_filter hc)⟩

/-- Every entry of `listCell` is the new one or an old one. -/
theorem Memory.mem_listCell {m : Memory} {a : Nat} {v : Word} {c : Nat × Word}
    (h : c ∈ m.listCell a v) : c = (a, v) ∨ c ∈ m := by
  induction m with
  | nil => simpa [Memory.listCell] using h
  | cons d m ih =>
    simp only [Memory.listCell] at h
    split at h
    · simpa using h
    · split at h
      · rcases List.mem_cons.mp h with h | h
        · exact .inl h
        · exact .inr (List.mem_cons_of_mem _ h)
      · rcases List.mem_cons.mp h with h | h
        · exact .inr (h ▸ List.mem_cons_self)
        · exact (ih h).imp id (List.mem_cons_of_mem _)

theorem Memory.pairwise_listCell {m : Memory} (a : Nat) (v : Word)
    (h : m.Pairwise (fun x y => x.1 < y.1)) : (m.listCell a v).Pairwise (fun x y => x.1 < y.1) := by
  induction m with
  | nil => simp [Memory.listCell]
  | cons d m ih =>
    obtain ⟨hd, hm⟩ := List.pairwise_cons.mp h
    simp only [Memory.listCell]
    split
    · next hlt =>
      refine List.pairwise_cons.mpr ⟨fun c hc => ?_, h⟩
      rcases List.mem_cons.mp hc with rfl | hc
      · exact hlt
      · exact Nat.lt_trans hlt (hd c hc)
    · split
      · next he => exact List.pairwise_cons.mpr ⟨fun c hc => he ▸ hd c hc, hm⟩
      · next hlt hne =>
        refine List.pairwise_cons.mpr ⟨fun c hc => ?_, ih hm⟩
        rcases Memory.mem_listCell hc with rfl | hc
        · exact by simp only; omega
        · exact hd c hc

/-- Every write keeps the canonical form. -/
theorem Memory.wf_writeCell {m : Memory} (h : m.wf) {a : Nat} (ha : a < Config.memSize) (v : Word) :
    (m.writeCell a v).wf := by
  unfold Memory.writeCell
  split
  · exact Memory.wf_forgetCell h a
  · next hv =>
    refine ⟨Memory.pairwise_listCell a v h.1, fun c hc => ?_⟩
    rcases Memory.mem_listCell hc with rfl | hc
    · exact ⟨ha, hv⟩
    · exact h.2 c hc

theorem wf_setCell {s : State} (h : s.mem.wf) (a v : Word) : (s.setCell a v).mem.wf :=
  Memory.wf_writeCell h (by simpa [Config.memSize] using a.isLt) v

end Sys2Proof.Machine
end

