-- ==== Sys2Proof/Laws/Loader.lean ====
section
/-! SUPPORT. What loading does to memory (spec/70_reset_and_hazards.md R265), and that it keeps the
canonical form. -/

namespace Sys2Proof.Machine

/-- The cells after words were stored from `a` on: the words in their places, the rest as before. -/
theorem readCell_storeWords (ws : List Word) : ∀ (a : Nat) (m : Memory) (c : Nat),
    (storeWords ws a m).readCell c =
      if h : a ≤ c ∧ c < a + ws.length then ws[c - a]'(by omega) else m.readCell c := by
  induction ws with
  | nil =>
    intro a m c
    rw [dif_neg (by simp)]
    rfl
  | cons v ws ih =>
    intro a m c
    rw [storeWords, ih, Memory.readCell_writeCell]
    by_cases h1 : c = a
    · subst h1
      simp
    · by_cases h2 : a + 1 ≤ c ∧ c < a + 1 + ws.length
      · rw [dif_pos h2, dif_pos (by simp; omega)]
        have : c - a = (c - (a + 1)) + 1 := by omega
        simp [this]
      · rw [dif_neg h2, dif_neg (by simp; omega), if_neg h1]

theorem wf_storeWords (ws : List Word) : ∀ {a : Nat} {m : Memory}, m.wf →
    a + ws.length ≤ Config.memSize → (storeWords ws a m).wf := by
  induction ws with
  | nil => exact fun h _ => h
  | cons v ws ih =>
    intro a m h hl
    rw [List.length_cons] at hl
    exact ih (Memory.wf_writeCell h (by omega) v) (by omega)

/-- Loading keeps the canonical form. -/
theorem wf_load {image : List Byte} {s t : State} (h : s.mem.wf) (hl : load image s = some t) :
    t.mem.wf := by
  match image, hl with
  | [], hl => exact absurd hl (by simp [load])
  | [_], hl => exact absurd hl (by simp [load])
  | hi :: lo :: rest, hl =>
    simp only [load, Option.some.injEq] at hl
    subst hl
    have ho : (hi ++ lo : Word).toNat < Config.memSize := (hi ++ lo : Word).isLt
    refine wf_storeWords _ h ?_
    rw [List.length_take]
    omega

/-- Loading changes memory and nothing else. -/
theorem load_frame {image : List Byte} {s t : State} (hl : load image s = some t) :
    t = { s with mem := t.mem } := by
  match image, hl with
  | [], hl => exact absurd hl (by simp [load])
  | [_], hl => exact absurd hl (by simp [load])
  | hi :: lo :: rest, hl =>
    simp only [load, Option.some.injEq] at hl
    rw [← hl]

end Sys2Proof.Machine
end

