-- ==== Sys2Proof/Laws/Ops.lean ====
section
/-! SUPPORT. What each shared operation can do, said once: the poll, the read through the memory
interface, writing a result with its flags, the two input traps, a round of a string scan. -/

namespace Sys2Proof.Machine

/-! ### Sign extension (R11) -/

/-- The spec's sign extension is the two's-complement one. -/
theorem sext_eq_signExtend {n : Nat} (f : BitVec n) (h : n ≤ 16) : sext f = f.signExtend 16 := by
  refine BitVec.eq_of_getLsbD_eq fun i hi => ?_
  have ones : n ≤ i → (0xFFFF#16).getLsbD (i - n) = true := fun _ => by
    have hj : i - n < 16 := by omega
    generalize i - n = j at hj
    revert j
    decide
  have high : n ≤ i → f.getLsbD i = false := fun hn => BitVec.getLsbD_of_ge f i hn
  unfold sext
  rw [BitVec.getLsbD_signExtend]
  cases hv : f.msb <;> by_cases hin : i < n <;>
    simp [hi, hin]
  · exact high (by omega)
  · exact .inr (ones (by omega))

/-! ### The poll and the read (R51) -/

/-- A byte can be read exactly when one has arrived (R36, R39). -/
theorem inRead_isSome (s : State) : (inRead s).isSome = inAvail s := by
  cases h : s.inq <;> simp [inRead, inAvail, h]

/-- A poll with a byte there: consumed into the data cell, status 0x8000. -/
theorem poll_ready {s : State} {b : Byte} {rest : List Byte} (h : (arrive s).inq = b :: rest) :
    poll s = (((arrive s).setInq rest).setCell s.params.kbsrAddr kbsrReady).setCell
      s.params.kbdrAddr (zext8 b) := by
  simp [poll, inRead, h]

/-- A poll with none: the status cell is cleared, nothing else happens. -/
theorem poll_empty {s : State} (h : (arrive s).inq = []) :
    poll s = (arrive s).setCell s.params.kbsrAddr 0#16 := by
  simp [poll, inRead, h]

/-- The two things a poll can do. -/
theorem poll_cases (s : State) :
    (∃ b rest, (arrive s).inq = b :: rest ∧
      poll s = (((arrive s).setInq rest).setCell s.params.kbsrAddr kbsrReady).setCell
        s.params.kbdrAddr (zext8 b)) ∨
    ((arrive s).inq = [] ∧ poll s = (arrive s).setCell s.params.kbsrAddr 0#16) := by
  cases h : (arrive s).inq with
  | nil => exact .inr ⟨rfl, poll_empty h⟩
  | cons b rest => exact .inl ⟨b, rest, rfl, poll_ready h⟩

/-- What a read of `a` can leave behind: nothing, unless `a` is the status cell. -/
theorem afterRead_cases (a : Word) (s : State) :
    (a ≠ s.params.kbsrAddr ∧ afterRead a s = s) ∨
    (a = s.params.kbsrAddr ∧ afterRead a s = poll s) := by
  unfold afterRead
  split
  · exact .inr ⟨‹_›, rfl⟩
  · exact .inl ⟨‹_›, rfl⟩

theorem afterRead_of_ne {a : Word} {s : State} (h : a ≠ s.params.kbsrAddr) : afterRead a s = s := by
  simp [afterRead, h]

theorem afterRead_kbsr (s : State) : afterRead s.params.kbsrAddr s = poll s := by
  simp [afterRead]

/-- A read changes only the two device cells, the input queue and the turns of arrivals. -/
theorem afterRead_frame (a : Word) (s : State) :
    ∃ m q p, afterRead a s = { s with mem := m, inq := q, plan := p } := by
  have he : arrive s = { s with inq := (arrive s).inq, plan := (arrive s).plan } := by
    rcases arrive_cases s with ⟨_, _, _, h⟩ | h <;> rw [h]
  rcases afterRead_cases a s with ⟨-, h⟩ | ⟨-, h⟩
  · exact ⟨s.mem, s.inq, s.plan, h⟩
  · rcases poll_cases s with ⟨b, rest, -, hp⟩ | ⟨-, hp⟩
    · exact ⟨_, rest, (arrive s).plan, by rw [h, hp, he]; rfl⟩
    · exact ⟨_, (arrive s).inq, (arrive s).plan, by rw [h, hp, he]; rfl⟩

theorem afterRead_eq (a : Word) (s : State) :
    afterRead a s = { s with
      mem := (afterRead a s).mem, inq := (afterRead a s).inq, plan := (afterRead a s).plan } := by
  obtain ⟨m, q, p, h⟩ := afterRead_frame a s
  rw [h]

@[simp] theorem afterRead_params (a : Word) (s : State) : (afterRead a s).params = s.params := by
  rw [afterRead_eq]
@[simp] theorem afterRead_regs (a : Word) (s : State) : (afterRead a s).regs = s.regs := by
  rw [afterRead_eq]
@[simp] theorem afterRead_pc (a : Word) (s : State) : (afterRead a s).pc = s.pc := by
  rw [afterRead_eq]
@[simp] theorem afterRead_cond (a : Word) (s : State) : (afterRead a s).cond = s.cond := by
  rw [afterRead_eq]
@[simp] theorem afterRead_running (a : Word) (s : State) : (afterRead a s).running = s.running := by
  rw [afterRead_eq]
@[simp] theorem afterRead_fault (a : Word) (s : State) : (afterRead a s).fault = s.fault := by
  rw [afterRead_eq]
@[simp] theorem afterRead_stopped (a : Word) (s : State) : (afterRead a s).stopped = s.stopped := by
  rw [afterRead_eq]
@[simp] theorem afterRead_out (a : Word) (s : State) : (afterRead a s).out = s.out := by
  rw [afterRead_eq]
@[simp] theorem afterRead_phase (a : Word) (s : State) : (afterRead a s).phase = s.phase := by
  rw [afterRead_eq]
@[simp] theorem afterRead_reg (a : Word) (s : State) (r : Reg) : (afterRead a s).reg r = s.reg r :=
  reg_congr (afterRead_regs a s) r

/-- The turns to come after a read: without the arrivals, when it polled. -/
theorem afterRead_plan (a : Word) (s : State) :
    (afterRead a s).plan = if a = s.params.kbsrAddr then (arrive s).plan else s.plan := by
  rcases afterRead_cases a s with ⟨ha, h⟩ | ⟨ha, h⟩
  · rw [h, if_neg ha]
  · rw [h, if_pos ha]
    rcases poll_cases s with ⟨b, rest, -, hp⟩ | ⟨-, hp⟩ <;> rw [hp] <;> rfl

/-- A read takes at most the head of the queue, after what has arrived. -/
theorem afterRead_inq (a : Word) (s : State) :
    (a ≠ s.params.kbsrAddr ∧ (afterRead a s).inq = s.inq) ∨
    (a = s.params.kbsrAddr ∧ ((afterRead a s).inq = (arrive s).inq ∨
      ∃ b, (arrive s).inq = b :: (afterRead a s).inq)) := by
  rcases afterRead_cases a s with ⟨ha, h⟩ | ⟨ha, h⟩
  · exact .inl ⟨ha, by rw [h]⟩
  · rcases poll_cases s with ⟨b, rest, hq, hp⟩ | ⟨-, hp⟩
    · exact .inr ⟨ha, .inr ⟨b, by rw [h, hp, hq]; rfl⟩⟩
    · exact .inr ⟨ha, .inl (by rw [h, hp]; rfl)⟩

/-- A read leaves every cell but the two device cells as it was. -/
theorem afterRead_cell_of_ne (a : Word) (s : State) {c : Word} (h1 : c ≠ s.params.kbsrAddr)
    (h2 : c ≠ s.params.kbdrAddr) : (afterRead a s).cell c = s.cell c := by
  rcases afterRead_cases a s with ⟨-, h⟩ | ⟨-, h⟩
  · rw [h]
  · rcases poll_cases s with ⟨b, rest, -, hp⟩ | ⟨-, hp⟩
    · rw [h, hp]; simp [h1, h2]
    · rw [h, hp]; simp [h1]

theorem wf_afterRead {s : State} (h : s.mem.wf) (a : Word) : (afterRead a s).mem.wf := by
  have ha : (arrive s).mem.wf := by rwa [arrive_mem]
  rcases afterRead_cases a s with ⟨-, he⟩ | ⟨-, he⟩
  · rwa [he]
  · rcases poll_cases s with ⟨b, rest, -, hp⟩ | ⟨-, hp⟩
    · rw [he, hp]; exact wf_setCell (wf_setCell (s := (arrive s).setInq rest) ha _ _) _ _
    · rw [he, hp]; exact wf_setCell ha _ _

@[simp] theorem memRead_fst (a : Word) (s : State) : (memRead a s).1 = (afterRead a s).cell a := rfl
@[simp] theorem memRead_snd (a : Word) (s : State) : (memRead a s).2 = afterRead a s := rfl

/-- The fetch: the word the interface reads at `pc`, and `pc` advanced (R24). -/
theorem fetch_eq (s : State) :
    fetch s = ((afterRead s.pc s).cell s.pc, (afterRead s.pc s).setPc (s.pc + 1#16)) := rfl

/-! ### Results and flags (R27, R28) -/

/-- A result goes to its register and is classified into `cond`; nothing else changes. -/
theorem writeResult_eq (dr : Reg) (v : Word) (s : State) :
    writeResult dr v s = (s.setReg dr v).setCond (classify s.params v) := by
  simp [writeResult, setFlags]

/-- The classification has three values, one flag each. -/
theorem classify_cases (p : Params) (v : Word) :
    (v = 0#16 ∧ classify p v = p.flZro) ∨ (v ≠ 0#16 ∧ v.msb = true ∧ classify p v = p.flNeg) ∨
    (v ≠ 0#16 ∧ v.msb = false ∧ classify p v = p.flPos) := by
  unfold classify
  by_cases h : v = 0#16
  · exact .inl ⟨h, by simp [h]⟩
  · cases hm : v.msb
    · exact .inr (.inr ⟨h, rfl, by simp [h]⟩)
    · exact .inr (.inl ⟨h, rfl, by simp [h]⟩)

/-- A byte is never negative (R192). -/
theorem classify_zext8 (p : Params) (c : Byte) :
    classify p (zext8 c) = if c = 0#8 then p.flZro else p.flPos := by
  have hz : zext8 c = 0#16 ↔ c = 0#8 := by revert c; decide
  have hm : (zext8 c).msb = false := by revert c; decide
  simp [classify, hz, hm]

/-- A load reads through the interface and writes the value as a result. -/
theorem loadFrom_eq (dr : Reg) (a : Word) (s : State) :
    loadFrom dr a s =
      ((afterRead a s).setReg dr ((afterRead a s).cell a)).setCond
        (classify s.params ((afterRead a s).cell a)) := by
  simp [loadFrom, writeResult_eq]

/-! ### The input traps (R192, R198, R208) -/

theorem finishGetc_ready {s : State} {c : Byte} {rest : List Byte} (h : (arrive s).inq = c :: rest) :
    finishGetc s = (writeResult .r0 (zext8 c) ((arrive s).setInq rest)).setPhase .boundary := by
  simp [finishGetc, inRead, h]

theorem finishGetc_blocked {s : State} (h : (arrive s).inq = []) :
    finishGetc s = (arrive s).setPhase (.input .getc) := by
  simp [finishGetc, inRead, h]

theorem finishIn_ready {s : State} {c : Byte} {rest : List Byte} (h : (arrive s).inq = c :: rest) :
    finishIn s =
      (writeResult .r0 (zext8 c) (((arrive s).setInq rest).outWrite [c])).setPhase .boundary := by
  simp [finishIn, inRead, h]

theorem finishIn_blocked {s : State} (h : (arrive s).inq = []) :
    finishIn s = (arrive s).setPhase (.input .promptedIn) := by
  simp [finishIn, inRead, h]

/-! ### String scans (R196, R200, R274) -/

/-- A scan that meets its first zero cell after `n` cells writes those cells' bytes and ends. -/
theorem scanCells_terminated (t : StringTrap) (m : Memory) (n : Nat) :
    ∀ (fuel : Nat) (a : Word), n < fuel →
      m.readCell (a + BitVec.ofNat 16 n).toNat = 0#16 →
      (∀ k < n, m.readCell (a + BitVec.ofNat 16 k).toNat ≠ 0#16) →
      scanCells t m fuel a =
        ((List.range n).flatMap (fun k => t.bytesOf (m.readCell (a + BitVec.ofNat 16 k).toNat)), none) := by
  induction n with
  | zero =>
    intro fuel a hf hz _
    obtain ⟨fuel, rfl⟩ := Nat.exists_eq_succ_of_ne_zero (Nat.pos_iff_ne_zero.mp hf)
    have hz' : m.readCell a.toNat = 0#16 := by simpa using hz
    simp [scanCells, hz']
  | succ n ih =>
    intro fuel a hf hz hnz
    obtain ⟨fuel, rfl⟩ := Nat.exists_eq_succ_of_ne_zero (by omega : fuel ≠ 0)
    have h0 : m.readCell a.toNat ≠ 0#16 := by simpa using hnz 0 (by omega)
    have shift : ∀ k, a + 1#16 + BitVec.ofNat 16 k = a + BitVec.ofNat 16 (k + 1) := fun k => by
      rw [BitVec.add_assoc, ← BitVec.ofNat_add, Nat.add_comm 1 k]
    have := ih fuel (a + 1#16) (by omega) (by rw [shift]; exact hz)
      (fun k hk => by rw [shift]; exact hnz (k + 1) (by omega))
    simp [scanCells, h0, this, List.range_succ_eq_map, List.flatMap_map, shift,
      Nat.mod_eq_of_lt (show a.toNat < 65536 from a.isLt)]

/-- A scan that meets no zero cell in `n` cells writes those cells' bytes and stands at the next one. -/
theorem scanCells_endless (t : StringTrap) (m : Memory) (n : Nat) :
    ∀ (a : Word), (∀ k < n, m.readCell (a + BitVec.ofNat 16 k).toNat ≠ 0#16) →
      scanCells t m n a =
        ((List.range n).flatMap (fun k => t.bytesOf (m.readCell (a + BitVec.ofNat 16 k).toNat)),
          some (a + BitVec.ofNat 16 n)) := by
  induction n with
  | zero => intro a _; simp [scanCells]
  | succ n ih =>
    intro a hnz
    have h0 : m.readCell a.toNat ≠ 0#16 := by simpa using hnz 0 (by omega)
    have shift : ∀ k, a + 1#16 + BitVec.ofNat 16 k = a + BitVec.ofNat 16 (k + 1) := fun k => by
      rw [BitVec.add_assoc, ← BitVec.ofNat_add, Nat.add_comm 1 k]
    have := ih (a + 1#16) (fun k hk => by rw [shift]; exact hnz (k + 1) (by omega))
    simp [scanCells, h0, this, List.range_succ_eq_map, List.flatMap_map, shift,
      Nat.mod_eq_of_lt (show a.toNat < 65536 from a.isLt)]

/-- What a round of a scan can leave: more output, and either the step complete or the scan going on. -/
theorem runScan_cases (t : StringTrap) (a : Word) (s : State) :
    ∃ bs, runScan t a s = (s.outWrite bs).setPhase .boundary ∨
      ∃ next, runScan t a s = (s.outWrite bs).setPhase (.scan t next) := by
  unfold runScan
  generalize scanCells t s.mem Config.memSize a = r
  obtain ⟨bs, _ | next⟩ := r
  · exact ⟨bs, .inl rfl⟩
  · exact ⟨bs, .inr ⟨next, rfl⟩⟩

/-- A round of a scan with a terminator within reach: the bytes up to it, and the step is complete. -/
theorem runScan_terminated (t : StringTrap) (a : Word) (s : State) {n : Nat} (hn : n < Config.memSize)
    (hz : s.cell (a + BitVec.ofNat 16 n) = 0#16)
    (hnz : ∀ k < n, s.cell (a + BitVec.ofNat 16 k) ≠ 0#16) :
    runScan t a s =
      (s.outWrite ((List.range n).flatMap (fun k => t.bytesOf (s.cell (a + BitVec.ofNat 16 k))))).setPhase
        .boundary := by
  unfold runScan
  rw [scanCells_terminated t s.mem n Config.memSize a hn hz hnz]
  rfl

/-- A round of a scan without a terminator: every cell's bytes, and the scan stands where it began. -/
theorem runScan_endless (t : StringTrap) (a : Word) (s : State) (hnz : ∀ b, s.cell b ≠ 0#16) :
    runScan t a s =
      (s.outWrite ((List.range Config.memSize).flatMap
        (fun k => t.bytesOf (s.cell (a + BitVec.ofNat 16 k))))).setPhase (.scan t a) := by
  have wrap : a + BitVec.ofNat 16 Config.memSize = a := by
    rw [show BitVec.ofNat 16 Config.memSize = 0#16 from by decide, BitVec.add_zero]
  have round := scanCells_endless t s.mem Config.memSize a (fun k _ => hnz _)
  rw [wrap] at round
  simp only [runScan, round, State.cell]

/-- PUTSP's bytes of a cell: the low byte, and the high byte when the cell is 256 or more. -/
theorem bytesOf_putsp (v : Word) : StringTrap.putsp.bytesOf v =
    v.setWidth 8 :: (if v.toNat < 256 then [] else [(v >>> 8).setWidth 8]) := by
  have low : v.extractLsb' 0 8 = v.setWidth 8 := by apply BitVec.eq_of_toNat_eq; simp
  have high : v.extractLsb' 8 8 = (v >>> 8).setWidth 8 := by apply BitVec.eq_of_toNat_eq; simp
  have zero : v.extractLsb' 8 8 = 0#8 ↔ v.toNat < 256 := by
    rw [← BitVec.toNat_inj]
    simp only [BitVec.extractLsb'_toNat, Nat.shiftRight_eq_div_pow, BitVec.toNat_ofNat]
    have := v.isLt
    omega
  simp only [StringTrap.bytesOf, zero]
  split <;> simp only [low, high]

/-- PUTS's byte of a cell: the low one. -/
theorem bytesOf_puts (v : Word) : StringTrap.puts.bytesOf v = [v.setWidth 8] := by
  have low : v.extractLsb' 0 8 = v.setWidth 8 := by apply BitVec.eq_of_toNat_eq; simp
  simp only [StringTrap.bytesOf, low]

end Sys2Proof.Machine
end

