-- ==== Sys2Proof/Laws/PerInstr.lean ====
section
/-! SUPPORT. Statements made instruction by instruction. Family Pattern: the encoder's word has the fixed
bits of the instruction's row of spec/opcode_table.json (`mask` and `match` there). -/

namespace Sys2Proof

/-- `mask` of the instruction's row of spec/opcode_table.json: the bits the row fixes. -/
def Instr.rowMask : Instr → Word
  | .addReg _ _ _ => 0xF020#16
  | .addImm _ _ _ => 0xF020#16
  | .andReg _ _ _ => 0xF020#16
  | .andImm _ _ _ => 0xF020#16
  | .not _ _ => 0xF000#16
  | .br _ _ => 0xF000#16
  | .jmp _ => 0xF000#16
  | .jsr _ => 0xF800#16
  | .jsrr _ => 0xF800#16
  | .ld _ _ => 0xF000#16
  | .ldi _ _ => 0xF000#16
  | .ldr _ _ _ => 0xF000#16
  | .lea _ _ => 0xF000#16
  | .st _ _ => 0xF000#16
  | .sti _ _ => 0xF000#16
  | .str _ _ _ => 0xF000#16
  | .trapGetc => 0xF0FF#16
  | .trapOut => 0xF0FF#16
  | .trapPuts => 0xF0FF#16
  | .trapIn => 0xF0FF#16
  | .trapPutsp => 0xF0FF#16
  | .trapHalt => 0xF0FF#16
  | .trapUnknown _ => 0xF000#16
  | .reservedA _ => 0xF000#16
  | .reservedB _ => 0xF000#16

/-- `match` of the instruction's row of spec/opcode_table.json: the values of the fixed bits. -/
def Instr.rowMatch : Instr → Word
  | .addReg _ _ _ => 0x1000#16
  | .addImm _ _ _ => 0x1020#16
  | .andReg _ _ _ => 0x5000#16
  | .andImm _ _ _ => 0x5020#16
  | .not _ _ => 0x9000#16
  | .br _ _ => 0x0000#16
  | .jmp _ => 0xC000#16
  | .jsr _ => 0x4800#16
  | .jsrr _ => 0x4000#16
  | .ld _ _ => 0x2000#16
  | .ldi _ _ => 0xA000#16
  | .ldr _ _ _ => 0x6000#16
  | .lea _ _ => 0xE000#16
  | .st _ _ => 0x3000#16
  | .sti _ _ => 0xB000#16
  | .str _ _ _ => 0x7000#16
  | .trapGetc => 0xF020#16
  | .trapOut => 0xF021#16
  | .trapPuts => 0xF022#16
  | .trapIn => 0xF023#16
  | .trapPutsp => 0xF024#16
  | .trapHalt => 0xF025#16
  | .trapUnknown _ => 0xF000#16
  | .reservedA _ => 0x8000#16
  | .reservedB _ => 0xD000#16

/-- The word of the instruction, with the default parameters, has the fixed bits of its row. -/
def Laws.Pattern.Statement (i : Instr) : Prop :=
  i.wellFormed = true → encode Params.default i &&& i.rowMask = i.rowMatch

/-- A word is below a mask's pattern when it is so bit by bit. -/
theorem Laws.and_eq_of_bits {w m p : Word} (h : ∀ i < 16, (w.getLsbD i && m.getLsbD i) = p.getLsbD i) :
    w &&& m = p :=
  BitVec.eq_of_getLsbD_eq fun i hi => by rw [BitVec.getLsbD_and]; exact h i hi

theorem Laws.Pattern.addReg (dr sr1 sr2 : Reg) :
    Laws.Pattern.Statement (.addReg dr sr1 sr2) := fun _ => by
  refine Laws.and_eq_of_bits fun i hi => ?_
  simp only [encode, Instr.fields, formatRRR, pack, opField, regField, Params.default, Layout.default,
    Instr.rowMask, Instr.rowMatch, BitVec.getLsbD_or, getLsbD_placed]
  interval_cases i <;> simp

theorem Laws.Pattern.addImm (dr sr1 : Reg) (imm5 : BitVec 5) :
    Laws.Pattern.Statement (.addImm dr sr1 imm5) := fun _ => by
  refine Laws.and_eq_of_bits fun i hi => ?_
  simp only [encode, Instr.fields, formatRRI, pack, opField, regField, Params.default, Layout.default,
    Instr.rowMask, Instr.rowMatch, BitVec.getLsbD_or, getLsbD_placed]
  interval_cases i <;> simp

theorem Laws.Pattern.andReg (dr sr1 sr2 : Reg) :
    Laws.Pattern.Statement (.andReg dr sr1 sr2) := fun _ => by
  refine Laws.and_eq_of_bits fun i hi => ?_
  simp only [encode, Instr.fields, formatRRR, pack, opField, regField, Params.default, Layout.default,
    Instr.rowMask, Instr.rowMatch, BitVec.getLsbD_or, getLsbD_placed]
  interval_cases i <;> simp

theorem Laws.Pattern.andImm (dr sr1 : Reg) (imm5 : BitVec 5) :
    Laws.Pattern.Statement (.andImm dr sr1 imm5) := fun _ => by
  refine Laws.and_eq_of_bits fun i hi => ?_
  simp only [encode, Instr.fields, formatRRI, pack, opField, regField, Params.default, Layout.default,
    Instr.rowMask, Instr.rowMatch, BitVec.getLsbD_or, getLsbD_placed]
  interval_cases i <;> simp

theorem Laws.Pattern.not (dr sr : Reg) : Laws.Pattern.Statement (.not dr sr) := fun _ => by
  refine Laws.and_eq_of_bits fun i hi => ?_
  simp only [encode, Instr.fields, formatRR, pack, opField, regField, Params.default, Layout.default,
    Instr.rowMask, Instr.rowMatch, BitVec.getLsbD_or, getLsbD_placed]
  interval_cases i <;> simp

theorem Laws.Pattern.br (nzp : BitVec 3) (off9 : BitVec 9) :
    Laws.Pattern.Statement (.br nzp off9) := fun _ => by
  refine Laws.and_eq_of_bits fun i hi => ?_
  simp only [encode, Instr.fields, formatBR, pack, opField, Params.default, Layout.default,
    Instr.rowMask, Instr.rowMatch, BitVec.getLsbD_or, getLsbD_placed]
  interval_cases i <;> simp

theorem Laws.Pattern.jmp (base : Reg) : Laws.Pattern.Statement (.jmp base) := fun _ => by
  refine Laws.and_eq_of_bits fun i hi => ?_
  simp only [encode, Instr.fields, formatR, pack, opField, regField, Params.default, Layout.default,
    Instr.rowMask, Instr.rowMatch, BitVec.getLsbD_or, getLsbD_placed]
  interval_cases i <;> simp

theorem Laws.Pattern.jsr (off11 : BitVec 11) : Laws.Pattern.Statement (.jsr off11) := fun _ => by
  refine Laws.and_eq_of_bits fun i hi => ?_
  simp only [encode, Instr.fields, formatJ, pack, opField, Params.default, Layout.default,
    Instr.rowMask, Instr.rowMatch, BitVec.getLsbD_or, getLsbD_placed]
  interval_cases i <;> simp

theorem Laws.Pattern.jsrr (base : Reg) : Laws.Pattern.Statement (.jsrr base) := fun _ => by
  refine Laws.and_eq_of_bits fun i hi => ?_
  simp only [encode, Instr.fields, formatJR, pack, opField, regField, Params.default, Layout.default,
    Instr.rowMask, Instr.rowMatch, BitVec.getLsbD_or, getLsbD_placed]
  interval_cases i <;> simp

theorem Laws.Pattern.ld (dr : Reg) (off9 : BitVec 9) :
    Laws.Pattern.Statement (.ld dr off9) := fun _ => by
  refine Laws.and_eq_of_bits fun i hi => ?_
  simp only [encode, Instr.fields, formatM9, pack, opField, regField, Params.default, Layout.default,
    Instr.rowMask, Instr.rowMatch, BitVec.getLsbD_or, getLsbD_placed]
  interval_cases i <;> simp

theorem Laws.Pattern.ldi (dr : Reg) (off9 : BitVec 9) :
    Laws.Pattern.Statement (.ldi dr off9) := fun _ => by
  refine Laws.and_eq_of_bits fun i hi => ?_
  simp only [encode, Instr.fields, formatM9, pack, opField, regField, Params.default, Layout.default,
    Instr.rowMask, Instr.rowMatch, BitVec.getLsbD_or, getLsbD_placed]
  interval_cases i <;> simp

theorem Laws.Pattern.ldr (dr base : Reg) (off6 : BitVec 6) :
    Laws.Pattern.Statement (.ldr dr base off6) := fun _ => by
  refine Laws.and_eq_of_bits fun i hi => ?_
  simp only [encode, Instr.fields, formatM6, pack, opField, regField, Params.default, Layout.default,
    Instr.rowMask, Instr.rowMatch, BitVec.getLsbD_or, getLsbD_placed]
  interval_cases i <;> simp

theorem Laws.Pattern.lea (dr : Reg) (off9 : BitVec 9) :
    Laws.Pattern.Statement (.lea dr off9) := fun _ => by
  refine Laws.and_eq_of_bits fun i hi => ?_
  simp only [encode, Instr.fields, formatM9, pack, opField, regField, Params.default, Layout.default,
    Instr.rowMask, Instr.rowMatch, BitVec.getLsbD_or, getLsbD_placed]
  interval_cases i <;> simp

theorem Laws.Pattern.st (sr : Reg) (off9 : BitVec 9) :
    Laws.Pattern.Statement (.st sr off9) := fun _ => by
  refine Laws.and_eq_of_bits fun i hi => ?_
  simp only [encode, Instr.fields, formatM9, pack, opField, regField, Params.default, Layout.default,
    Instr.rowMask, Instr.rowMatch, BitVec.getLsbD_or, getLsbD_placed]
  interval_cases i <;> simp

theorem Laws.Pattern.sti (sr : Reg) (off9 : BitVec 9) :
    Laws.Pattern.Statement (.sti sr off9) := fun _ => by
  refine Laws.and_eq_of_bits fun i hi => ?_
  simp only [encode, Instr.fields, formatM9, pack, opField, regField, Params.default, Layout.default,
    Instr.rowMask, Instr.rowMatch, BitVec.getLsbD_or, getLsbD_placed]
  interval_cases i <;> simp

theorem Laws.Pattern.str (sr base : Reg) (off6 : BitVec 6) :
    Laws.Pattern.Statement (.str sr base off6) := fun _ => by
  refine Laws.and_eq_of_bits fun i hi => ?_
  simp only [encode, Instr.fields, formatM6, pack, opField, regField, Params.default, Layout.default,
    Instr.rowMask, Instr.rowMatch, BitVec.getLsbD_or, getLsbD_placed]
  interval_cases i <;> simp

theorem Laws.Pattern.trapGetc : Laws.Pattern.Statement .trapGetc := fun _ => by decide

theorem Laws.Pattern.trapOut : Laws.Pattern.Statement .trapOut := fun _ => by decide

theorem Laws.Pattern.trapPuts : Laws.Pattern.Statement .trapPuts := fun _ => by decide

theorem Laws.Pattern.trapIn : Laws.Pattern.Statement .trapIn := fun _ => by decide

theorem Laws.Pattern.trapPutsp : Laws.Pattern.Statement .trapPutsp := fun _ => by decide

theorem Laws.Pattern.trapHalt : Laws.Pattern.Statement .trapHalt := fun _ => by decide

theorem Laws.Pattern.trapUnknown (vec : BitVec 8) :
    Laws.Pattern.Statement (.trapUnknown vec) := fun _ => by
  refine Laws.and_eq_of_bits fun i hi => ?_
  simp only [encode, Instr.fields, formatT, pack, opField, Params.default, Layout.default,
    Instr.rowMask, Instr.rowMatch, BitVec.getLsbD_or, getLsbD_placed]
  interval_cases i <;> simp

theorem Laws.Pattern.reservedA (low : BitVec 12) :
    Laws.Pattern.Statement (.reservedA low) := fun _ => by
  refine Laws.and_eq_of_bits fun i hi => ?_
  simp only [encode, Instr.fields, formatX, pack, opField, Params.default, Layout.default,
    Instr.rowMask, Instr.rowMatch, BitVec.getLsbD_or, getLsbD_placed]
  interval_cases i <;> simp

theorem Laws.Pattern.reservedB (low : BitVec 12) :
    Laws.Pattern.Statement (.reservedB low) := fun _ => by
  refine Laws.and_eq_of_bits fun i hi => ?_
  simp only [encode, Instr.fields, formatX, pack, opField, Params.default, Layout.default,
    Instr.rowMask, Instr.rowMatch, BitVec.getLsbD_or, getLsbD_placed]
  interval_cases i <;> simp

end Sys2Proof
end

