-- ==== Sys2Proof/Laws/Step.lean ====
section
/-! SUPPORT. What a transition can be, said once: a turn of the host, or a turn of the core that runs an
instruction or goes on inside a step. -/

namespace Sys2Proof.Machine

/-- An empty plan is the plan left after the core's turn. -/
theorem setPlan_self {s : State} (h : s.plan = []) : s.setPlan [] = s := by
  cases s
  simp_all [State.setPlan]

/-- A core's turn is `coreTurn` on the state with the rest of the plan. -/
theorem step_of_coreTurn {s : State} {rest : List Turn} (h : CoreTurn s rest) :
    step s = coreTurn (s.setPlan rest) := by
  rcases h with ⟨hp, rfl⟩ | hp
  · rw [setPlan_self hp]; simp [step, takeTurn, hp]
  · simp [step, takeTurn, hp]

/-- Between steps of a run the core's turn runs the instruction it fetches. -/
theorem coreTurn_ready {s : State} (hr : s.running = true) (hf : s.fault = none)
    (hp : s.phase = .boundary) : coreTurn s = exec (decode s.params (fetch s).1) (fetch s).2 := by
  simp [coreTurn, hr, hf, continueStep, hp, runInstr]

/-- Inside a blocked GETC the core's turn goes on from its read. -/
theorem coreTurn_getc {s : State} (hr : s.running = true) (hf : s.fault = none)
    (hp : s.phase = .input .getc) : coreTurn s = .next (finishGetc s) := by
  simp [coreTurn, hr, hf, continueStep, hp]

/-- Inside a blocked IN the core's turn goes on from its read. -/
theorem coreTurn_promptedIn {s : State} (hr : s.running = true) (hf : s.fault = none)
    (hp : s.phase = .input .promptedIn) : coreTurn s = .next (finishIn s) := by
  simp [coreTurn, hr, hf, continueStep, hp]

/-- Inside a string scan the core's turn is its next round. -/
theorem coreTurn_scan {s : State} {k : StringTrap} {a : Word} (hr : s.running = true)
    (hf : s.fault = none) (hp : s.phase = .scan k a) : coreTurn s = .next (runScan k a s) := by
  simp [coreTurn, hr, hf, continueStep, hp]

/-- Every transition is one of these. -/
theorem step_next_cases {s t : State} (h : step s = .next t) :
    (∃ b rest, s.plan = .append b :: rest ∧ t = hostAppend b (s.setPlan rest)) ∨
    (∃ bs rest, s.plan = .during bs :: rest ∧ t = arrive s) ∨
    (∃ rest, s.plan = .stop :: rest ∧ t = hostStop (s.setPlan rest)) ∨
    (∃ rest, CoreTurn s rest ∧ s.running = true ∧ s.fault = none ∧
      ((s.phase = .boundary ∧
          exec (decode s.params (fetch (s.setPlan rest)).1) (fetch (s.setPlan rest)).2 = .next t) ∨
        (s.phase = .input .getc ∧ t = finishGetc (s.setPlan rest)) ∨
        (s.phase = .input .promptedIn ∧ t = finishIn (s.setPlan rest)) ∨
        (∃ k a, s.phase = .scan k a ∧ t = runScan k a (s.setPlan rest)))) := by
  have core : ∀ rest, CoreTurn s rest → coreTurn (s.setPlan rest) = .next t →
      s.running = true ∧ s.fault = none ∧
      ((s.phase = .boundary ∧
          exec (decode s.params (fetch (s.setPlan rest)).1) (fetch (s.setPlan rest)).2 = .next t) ∨
        (s.phase = .input .getc ∧ t = finishGetc (s.setPlan rest)) ∨
        (s.phase = .input .promptedIn ∧ t = finishIn (s.setPlan rest)) ∨
        (∃ k a, s.phase = .scan k a ∧ t = runScan k a (s.setPlan rest))) := by
    intro rest _ hc
    unfold coreTurn at hc
    split at hc
    · next hrun =>
      obtain ⟨hr, hf⟩ := hrun
      refine ⟨hr, hf, ?_⟩
      unfold continueStep at hc
      split at hc
      · next hp => exact .inl ⟨hp, hc⟩
      · next hp => cases hc; exact .inr (.inl ⟨hp, rfl⟩)
      · next hp => cases hc; exact .inr (.inr (.inl ⟨hp, rfl⟩))
      · next k a hp => cases hc; exact .inr (.inr (.inr ⟨k, a, hp, rfl⟩))
    · cases hc
  rcases hp : s.plan with _ | ⟨turn, rest⟩
  · have hc : CoreTurn s [] := .inl ⟨hp, rfl⟩
    exact .inr (.inr (.inr ⟨[], hc, core [] hc ((step_of_coreTurn hc).symm.trans h)⟩))
  · cases turn with
    | core =>
      have hc : CoreTurn s rest := .inr hp
      exact .inr (.inr (.inr ⟨rest, hc, core rest hc ((step_of_coreTurn hc).symm.trans h)⟩))
    | append b =>
      simp only [step, takeTurn, hp] at h
      cases h
      exact .inl ⟨b, rest, rfl, rfl⟩
    | stop =>
      simp only [step, takeTurn, hp] at h
      cases h
      exact .inr (.inr (.inl ⟨rest, rfl, rfl⟩))
    | during bs =>
      simp only [step, takeTurn, hp] at h
      cases h
      exact .inr (.inl ⟨bs, rest, rfl, rfl⟩)

/-- An instruction placed where the machine fetches is what the next transition runs. -/
theorem step_placeInstr (w : Word) (s : State) :
    step (placeInstr w s) =
      exec (decode s.params w) ((placeInstr w s).setPc ((placeInstr w s).pc + 1#16)) := by
  have hk : (placeInstr w s).pc ≠ (placeInstr w s).params.kbsrAddr := by
    change (if s.pc = s.params.kbsrAddr then s.pc + 1#16 else s.pc) ≠ s.params.kbsrAddr
    split
    · next h => rw [h]; simp
    · assumption
  have hw : (placeInstr w s).cell (placeInstr w s).pc = w :=
    (cell_setCell s _ _ w).trans (if_pos rfl)
  rw [step_of_coreTurn (rest := []) (.inl ⟨rfl, rfl⟩), setPlan_self rfl, coreTurn_ready rfl rfl rfl,
    fetch_eq, afterRead_of_ne hk]
  simp only [hw]
  rfl

end Sys2Proof.Machine
end

