-- ==== Sys2Proof/Tests/Slice0.lean ====
section
/-! SUPPORT. Small tests. Expected values are the spec's: its worked examples, spec/95_test_vectors.md, and
the encodings of spec/30_encoding.md R83 written out by hand. After them, one witness for the hypotheses of
each statement that has some. -/

namespace Sys2Proof.Tests

open Sys2Proof.Machine

/-! ### Well-formedness: the one check refuses what it should (R88) -/

theorem test_wellFormed_refuses_getc_vector : (Instr.trapUnknown 0x20#8).wellFormed = false := by decide
theorem test_wellFormed_refuses_halt_vector : (Instr.trapUnknown 0x25#8).wellFormed = false := by decide
theorem test_wellFormed_below_range : (Instr.trapUnknown 0x1F#8).wellFormed = true := by decide
theorem test_wellFormed_above_range : (Instr.trapUnknown 0x26#8).wellFormed = true := by decide

/-! ### Decoding: one word for every constructor, its bits written out from R83 -/

theorem test_decode_addReg : decodeTableWord 16 0b0001010011000100 = some (.addReg .r2 .r3 .r4) := by decide
theorem test_decode_addReg_ignored : decodeTableWord 16 0x1018 = some (.addReg .r0 .r0 .r0) := by decide
theorem test_decode_addImm : decodeTableWord 16 0b0001010011111111 = some (.addImm .r2 .r3 31#5) := by decide
theorem test_decode_andReg : decodeTableWord 16 0b0101001010000011 = some (.andReg .r1 .r2 .r3) := by decide
theorem test_decode_andImm : decodeTableWord 16 0b0101001010110000 = some (.andImm .r1 .r2 16#5) := by decide
theorem test_decode_not : decodeTableWord 16 0b1001001010111111 = some (.not .r1 .r2) := by decide
theorem test_decode_br : decodeTableWord 16 0b0000010000000101 = some (.br 2#3 5#9) := by decide
theorem test_decode_br_n : decodeTableWord 16 0x0900 = some (.br 4#3 0x100#9) := by decide
theorem test_decode_jmp : decodeTableWord 16 0b1100000011000000 = some (.jmp .r3) := by decide
theorem test_decode_jsr : decodeTableWord 16 0b0100110000000000 = some (.jsr 0x400#11) := by decide
theorem test_decode_jsrr : decodeTableWord 16 0b0100000010000000 = some (.jsrr .r2) := by decide
theorem test_decode_ld : decodeTableWord 16 0b0010001000000010 = some (.ld .r1 2#9) := by decide
theorem test_decode_ldi : decodeTableWord 16 0b1010000111111110 = some (.ldi .r0 0x1FE#9) := by decide
theorem test_decode_ldr : decodeTableWord 16 0b0110001010100000 = some (.ldr .r1 .r2 32#6) := by decide
theorem test_decode_lea : decodeTableWord 16 0b1110001100000000 = some (.lea .r1 0x100#9) := by decide
theorem test_decode_st : decodeTableWord 16 0b0011011111111111 = some (.st .r3 0x1FF#9) := by decide
theorem test_decode_sti : decodeTableWord 16 0b1011001000000001 = some (.sti .r1 1#9) := by decide
theorem test_decode_str : decodeTableWord 16 0b0111001010000011 = some (.str .r1 .r2 3#6) := by decide
theorem test_decode_getc : decodeTableWord 16 0b1111000000100000 = some .trapGetc := by decide
theorem test_decode_out : decodeTableWord 16 0b1111000000100001 = some .trapOut := by decide
theorem test_decode_puts : decodeTableWord 16 0b1111000000100010 = some .trapPuts := by decide
theorem test_decode_in : decodeTableWord 16 0b1111000000100011 = some .trapIn := by decide
theorem test_decode_putsp : decodeTableWord 16 0b1111000000100100 = some .trapPutsp := by decide
theorem test_decode_halt : decodeTableWord 16 0b1111111100100101 = some .trapHalt := by decide
theorem test_decode_unknown : decodeTableWord 16 0b1111000011111111 = some (.trapUnknown 0xFF#8) := by decide
theorem test_decode_rsvA : decodeTableWord 16 0b1000111111111111 = some (.reservedA 0xFFF#12) := by decide
theorem test_decode_rsvB : decodeTableWord 16 0b1101000100100011 = some (.reservedB 0x123#12) := by decide

/-! ### Decoding with other parameters than the defaults (R8): fields and opcodes moved, words by hand -/

/-- ADD and LEA exchange their numbers, SR2, NOT's SR, BaseR and offset6 their places. -/
def otherParams : Params :=
  { Params.default with
    opcAdd := 14#4, opcLea := 1#4
    lay := { Layout.default with sr2 := 2, srNot := 0, baseR := 0, off6 := 3 } }

theorem test_params_ok : Params.default.Ok := by decide
theorem test_other_params_ok : otherParams.Ok := by decide
theorem test_params_refuse_overlap : ¬ { Params.default with lay := { Layout.default with off9 := 3 } }.Ok := by
  decide
theorem test_params_refuse_equal_opcodes : ¬ { Params.default with opcAdd := 0#4 }.Ok := by decide
theorem test_decode_other_add : decode otherParams 0b1110010011010000#16 = .addReg .r2 .r3 .r4 := by decide
theorem test_decode_other_ldr : decode otherParams 0b0110001100000010#16 = .ldr .r1 .r2 32#6 := by decide
theorem test_encode_other_not : encode otherParams (.not .r1 .r2) = 0b1001001000000010#16 := by decide

/-! ### Steps: vectors of spec/95_test_vectors.md -/

/-- The reset state with a word at 0x3000. -/
def at3000 (w : Nat) : State := State.reset.withFetchWord 16 w

/-- The reset state with `pc` and the word at another address. -/
def atAddr (a : Word) (w : Nat) : State := (State.reset.setPc a).withFetchWord 16 w

/-- Whether an outcome is a next state of which `p` holds. -/
def gives (o : Outcome) (p : State → Bool) : Bool :=
  match o with
  | .next t => p t
  | .fault _ => false
  | .refused _ => false

theorem test_addReg : gives (step (((at3000 0x14C4).setReg .r3 0x0005#16).setReg .r4 0xFFFD#16))
    (fun t => t.reg .r2 == 0x0002#16 && t.cond == 1#16 && t.pc == 0x3001#16) = true := by decide
theorem test_addReg_doubles : gives (step ((at3000 0x1241).setReg .r1 0x4001#16))
    (fun t => t.reg .r1 == 0x8002#16 && t.cond == 4#16) = true := by decide
theorem test_addImm : gives (step (at3000 0x14FF))
    (fun t => t.reg .r2 == 0xFFFF#16 && t.cond == 4#16) = true := by decide
theorem test_addImm_least : gives (step ((at3000 0x1030).setReg .r0 0x0010#16))
    (fun t => t.reg .r0 == 0x0000#16 && t.cond == 2#16) = true := by decide
theorem test_andReg : gives (step (((at3000 0x5283).setReg .r2 0xFF0F#16).setReg .r3 0x0FF0#16))
    (fun t => t.reg .r1 == 0x0F00#16 && t.cond == 1#16) = true := by decide
theorem test_andImm : gives (step ((at3000 0x52B0).setReg .r2 0xABCD#16))
    (fun t => t.reg .r1 == 0xABC0#16 && t.cond == 4#16) = true := by decide
theorem test_andImm_clears : gives (step ((at3000 0x5020).setReg .r0 0xBEEF#16))
    (fun t => t.reg .r0 == 0#16 && t.cond == 2#16) = true := by decide
theorem test_not : gives (step ((at3000 0x92BF).setReg .r2 0x8000#16))
    (fun t => t.reg .r1 == 0x7FFF#16 && t.cond == 1#16) = true := by decide
theorem test_br_taken : gives (step ((atAddr 0x3010#16 0x0405).setCond 2#16))
    (fun t => t.pc == 0x3016#16 && t.cond == 2#16) = true := by decide
theorem test_br_at_reset : gives (step (at3000 0x0FFF)) (fun t => t.pc == 0x3001#16) = true := by decide
theorem test_jmp : gives (step ((at3000 0xCFFF).setReg .r7 0x1234#16))
    (fun t => t.pc == 0x1234#16) = true := by decide
theorem test_jsr : gives (step ((at3000 0x4804).setCond 4#16))
    (fun t => t.reg .r7 == 0x3001#16 && t.pc == 0x3005#16 && t.cond == 4#16) = true := by decide
theorem test_jsr_wraps : gives (step ((atAddr 0xFFFF#16 0x4800).setCond 1#16))
    (fun t => t.reg .r7 == 0#16 && t.pc == 0#16 && t.cond == 1#16) = true := by decide
theorem test_jsrr : gives (step ((at3000 0x4080).setReg .r2 0x5000#16))
    (fun t => t.reg .r7 == 0x3001#16 && t.pc == 0x5000#16) = true := by decide
theorem test_jsrr_r7 : gives (step ((at3000 0x41C0).setReg .r7 0x5000#16))
    (fun t => t.reg .r7 == 0x3001#16 && t.pc == 0x3001#16) = true := by decide
theorem test_ld : gives (step ((at3000 0x2100).setCell 0x2F01#16 0x7FFF#16))
    (fun t => t.reg .r0 == 0x7FFF#16 && t.cond == 1#16) = true := by decide
theorem test_ld_wraps : gives (step ((atAddr 0xFFFF#16 0x2000).setCell 0#16 0x0042#16))
    (fun t => t.reg .r0 == 0x0042#16 && t.pc == 0#16) = true := by decide
theorem test_ldi : gives
    (step (((atAddr 0x3001#16 0xA1FE).setCell 0x3000#16 0x4000#16).setCell 0x4000#16 0x1234#16))
    (fun t => t.reg .r0 == 0x1234#16 && t.cond == 1#16 && t.pc == 0x3002#16) = true := by decide
theorem test_ldi_polls : gives (step (((at3000 0xA000).setCell 0x3001#16 0xFE00#16).setInq [0x7A#8]))
    (fun t => t.reg .r0 == 0x8000#16 && t.cond == 4#16 && t.cell 0xFE02#16 == 0x007A#16 && t.inq == []) =
    true := by decide
theorem test_ldr_own_base : gives
    (step (((at3000 0x6480).setReg .r2 0x4000#16).setCell 0x4000#16 0x4001#16))
    (fun t => t.reg .r2 == 0x4001#16 && t.cond == 1#16) = true := by decide
theorem test_ldr_status_empty : gives
    (step ((((at3000 0x6040).setReg .r1 0xFE00#16).setCell 0xFE00#16 0x8000#16).setCell 0xFE02#16 0x41#16))
    (fun t => t.reg .r0 == 0#16 && t.cond == 2#16 && t.cell 0xFE00#16 == 0#16 &&
      t.cell 0xFE02#16 == 0x0041#16) = true := by decide
theorem test_lea_negative : gives (step (atAddr 0x8001#16 0xE1FE))
    (fun t => t.reg .r0 == 0x8000#16 && t.cond == 4#16 && t.pc == 0x8002#16) = true := by decide
theorem test_st : gives (step ((at3000 0x37FF).setReg .r3 0x1111#16))
    (fun t => t.cell 0x3000#16 == 0x1111#16 && t.cond == 0#16) = true := by decide
theorem test_sti : gives (step (((at3000 0xB201).setReg .r1 0x0042#16).setCell 0x3002#16 0x5000#16))
    (fun t => t.cell 0x5000#16 == 0x0042#16 && t.cell 0x3002#16 == 0x5000#16) = true := by decide
theorem test_str_wraps : gives (step ((at3000 0x72BF).setReg .r1 0x0009#16))
    (fun t => t.cell 0xFFFF#16 == 0x0009#16) = true := by decide
theorem test_str_status : gives
    (step ((((at3000 0x7280).setReg .r1 0x1234#16).setReg .r2 0xFE00#16).setInq [0x41#8]))
    (fun t => t.cell 0xFE00#16 == 0x1234#16 && t.inq == [0x41#8]) = true := by decide
theorem test_getc : gives (step (((at3000 0xF020).setReg .r0 0xFFFF#16).setInq [0xFF#8, 0x62#8]))
    (fun t => t.reg .r0 == 0x00FF#16 && t.cond == 1#16 && t.inq == [0x62#8] && t.out == []) = true := by
  decide
/-- The byte arrives after the fetch and before `InRead()`. -/
theorem test_getc_arrival : gives (step ((at3000 0xF020).setPlan [.core, .during [0x62#8], .stop]))
    (fun t => t.reg .r0 == 0x0062#16 && t.phase == .boundary && t.inq == [] && t.plan == [.stop]) = true := by
  decide
/-- The step does not look at the queue: the arrival is a turn of its own. -/
theorem test_add_arrival : gives (step ((at3000 0x14FF).setPlan [.core, .during [0x62#8]]))
    (fun t => t.inq == [] && t.plan == [.during [0x62#8]]) = true := by decide
theorem test_out : gives (step (((at3000 0xF021).setReg .r0 0x1248#16).setCond 4#16))
    (fun t => t.out == [0x48#8] && t.cond == 4#16) = true := by decide
theorem test_puts : gives (step (((((at3000 0xF022).setReg .r0 0x4000#16).setCell 0x4000#16 0x0141#16).setCell
    0x4001#16 0x0100#16).setCell 0x4002#16 0x0042#16))
    (fun t => t.out == [0x41#8, 0x00#8, 0x42#8] && t.reg .r0 == 0x4000#16) = true := by decide
theorem test_puts_status_cell : gives (step ((((((at3000 0xF022).setReg .r0 0xFDFF#16).setCell 0xFDFF#16
    0x41#16).setCell 0xFE00#16 0x42#16).setCell 0xFE01#16 0x43#16).setInq [0x51#8]))
    (fun t => t.out == [0x41#8, 0x42#8, 0x43#8] && t.cell 0xFE00#16 == 0x42#16 && t.inq == [0x51#8]) =
    true := by decide
theorem test_in : gives (step ((at3000 0xF023).setInq [0x41#8]))
    (fun t => t.out == Params.default.inPrompt ++ [0x41#8] && t.reg .r0 == 0x0041#16 && t.cond == 1#16) = true := by
  decide
theorem test_in_blocks : gives (step (at3000 0xF023))
    (fun t => t.out == Params.default.inPrompt && t.phase == .input .promptedIn && t.cond == 0#16) = true := by decide
theorem test_putsp : gives (step ((((at3000 0xF024).setReg .r0 0x4000#16).setCell 0x4000#16 0x6548#16).setCell
    0x4001#16 0x006C#16)) (fun t => t.out == [0x48#8, 0x65#8, 0x6C#8]) = true := by decide
theorem test_putsp_zero_low : gives (step (((at3000 0xF024).setReg .r0 0x4000#16).setCell 0x4000#16 0x4100#16))
    (fun t => t.out == [0x00#8, 0x41#8]) = true := by decide
theorem test_halt : gives (step (at3000 0xF025))
    (fun t => t.out == Params.default.haltNotice && t.runEnd == some .halted && t.pc == 0x3001#16 &&
      t.reg .r7 == 0#16) = true := by decide
theorem test_unknown : gives (step (at3000 0xF01F))
    (fun t => t.fault == some (.unknownTrapVector 0x1F#8) && t.running == false) = true := by decide
theorem test_rsvA : gives (step (at3000 0x8000))
    (fun t => t.fault == some (.illegalOpcode 0x8000#16) && t.pc == 0x3001#16) = true := by decide
theorem test_rsvB : gives (step (atAddr 0x4000#16 0xD123))
    (fun t => t.fault == some (.illegalOpcode 0xD123#16) && t.pc == 0x4001#16 && t.running == false) =
    true := by decide
theorem test_fatal_codes : (Fatal.illegalOpcode 0#16).code = 1 ∧ (Fatal.unknownTrapVector 0#8).code = 2 := by
  decide

/-! ### The loader: V-LOAD -/

theorem test_load_big_endian :
    ((load [0x30#8, 0x00#8, 0x12#8, 0x34#8, 0xAB#8, 0xCD#8] State.reset).map
      (fun t => (t.cell 0x3000#16, t.cell 0x3001#16))) = some (0x1234#16, 0xABCD#16) := by decide
theorem test_load_truncates :
    ((load [0xFF#8, 0xFE#8, 0x11#8, 0x11#8, 0x22#8, 0x22#8, 0x33#8, 0x33#8] State.reset).map
      (fun t => (t.cell 0xFFFE#16, t.cell 0xFFFF#16, t.cell 0#16))) =
      some (0x1111#16, 0x2222#16, 0#16) := by decide
theorem test_load_later_wins :
    ((loadAll [[0x30#8, 0x00#8, 0x11#8, 0x11#8], [0x30#8, 0x00#8, 0x22#8, 0x22#8, 0xAB#8]] State.reset).map
      (fun t => (t.cell 0x3000#16, t.cell 0x3001#16))) = some (0x2222#16, 0#16) := by decide

/-! ### Witnesses: states and operands that meet the hypotheses of the statements -/

/-- A string of two characters at 0x4000, R0 at it. -/
def stringState : State :=
  ((State.reset.setReg .r0 0x4000#16).setCell 0x4000#16 0x0048#16).setCell 0x4001#16 0x0069#16

/-- The end of memory holds the one character of a string. -/
def wrapState : State := (State.reset.setReg .r0 0xFFFF#16).setCell 0xFFFF#16 0x0041#16

/-- `pc` at the status cell. -/
def statusFetch (q : List Byte) : State := (State.reset.setPc Params.default.kbsrAddr).setInq q

/-- Memory in which every cell holds 1. -/
def fullMemory : Memory := (List.range Config.memSize).map (fun a => (a, 1#16))

theorem readCell_map_one (l : List Nat) (a : Nat) (h : a ∈ l) :
    Memory.readCell (l.map (fun b => (b, 1#16))) a = 1#16 := by
  induction l with
  | nil => cases h
  | cons b l ih =>
    rw [List.map_cons, Memory.readCell]
    by_cases hab : a = b
    · rw [if_pos hab]
    · rw [if_neg hab]
      exact ih ((List.mem_cons.mp h).resolve_left hab)

theorem witness_DecodeEncodeRoundTrip :
    otherParams.Ok ∧ (Instr.trapUnknown 0x26#8).wellFormed = true ∧
    (Instr.addImm .r7 .r0 16#5).wellFormed = true := by decide
theorem witness_EncodeDecodeKeepsReadBits : Params.default.Ok ∧ otherParams.Ok :=
  ⟨test_params_ok, test_other_params_ok⟩
theorem witness_IgnoredBitsHaveNoEffect :
    Params.default.Ok ∧
    (0x1018#16 : Word) &&& (decode Params.default 0x1000#16).readBits Params.default =
      0x1000#16 &&& (decode Params.default 0x1000#16).readBits Params.default ∧
    (0xFF25#16 : Word) &&& (decode Params.default 0xF025#16).readBits Params.default =
      0xF025#16 &&& (decode Params.default 0xF025#16).readBits Params.default := by decide
theorem witness_IllegalEncodingsAreTwoSets :
    Params.default.Ok ∧ (decode Params.default 0xF026#16).illegal = true ∧
    (decode Params.default 0xF025#16).illegal = false ∧
    (decode Params.default 0x8FFF#16).illegal = true ∧
    (decode Params.default 0x9000#16).illegal = false := by decide
/-- V-SEXT: one bit, and sixteen. -/
theorem witness_SignExtensionReplicatesTopBit :
    sext ((0x0001#16).extractLsb' 0 1) = 0xFFFF#16 ∧ sext ((0x8000#16).extractLsb' 0 16) = 0x8000#16 ∧
    sext ((0xFFE5#16).extractLsb' 0 5) = 0x0005#16 := by decide
/-- In `arrival` two bytes come before the next look at the queue. -/
def arrival : State := State.reset.setPlan [.during [0x41#8, 0x42#8], .stop]
theorem witness_MemReadPollsOnlyStatusCell :
    arrival.params.Ok ∧ (0xFE02#16 : Word) ≠ arrival.params.kbsrAddr ∧
    (arrive arrival).inq = 0x41#8 :: [0x42#8] ∧
    (arrive (State.reset.setInq [0x41#8])).inq = 0x41#8 :: [] ∧ (arrive State.reset).inq = [] := by decide
theorem witness_MemWriteIsAPlainCellStore :
    State.reset.params.Ok ∧ (arrive State.reset).inq = [] ∧ (arrive arrival).inq = 0x41#8 :: [0x42#8] := by
  decide
theorem witness_SetFlagsClassifiesTheRegister :
    State.reset.params.Ok ∧ State.reset.reg .r0 = 0#16 ∧
    ((State.reset.setReg .r0 0x8000#16).reg .r0).getLsbD 15 = true := by decide
theorem witness_BranchTakenWhenFlagSelected :
    (State.reset.setCond Params.default.flNeg).cond = Params.default.flNeg ∧
    (State.reset.setCond Params.default.flZro).cond = Params.default.flZro ∧
    (State.reset.setCond Params.default.flPos).cond = Params.default.flPos ∧ State.reset.cond = State.reset.params.condReset ∧
    State.reset.cond = 0#16 ∧ State.reset.params = Params.default := by decide
/-- LD at 0xFDFE with offset 1 reads the status cell, with offset 0 the cell below it. -/
theorem witness_LdLoadsPcRelative :
    State.reset.params.Ok ∧ pcRelative 1#9 (State.reset.setPc 0xFDFF#16) = State.reset.params.kbsrAddr ∧
    pcRelative 0#9 (State.reset.setPc 0xFDFF#16) ≠ State.reset.params.kbsrAddr ∧
    (arrive (State.reset.setPc 0xFDFF#16)).inq = [] ∧
    (arrive ((State.reset.setPc 0xFDFF#16).setInq [0x41#8])).inq = 0x41#8 :: [] := by decide
theorem witness_LdiReadsPointerThenDatum :
    State.reset.params.Ok ∧
    (memRead (pcRelative 0#9 (State.reset.setPc 0x3001#16))
      ((State.reset.setPc 0x3001#16).setCell 0x3001#16 0xFE00#16)).1 = State.reset.params.kbsrAddr ∧
    (memRead (pcRelative 0#9 State.reset) State.reset).1 ≠ State.reset.params.kbsrAddr := by decide
theorem witness_LdrLoadsBasePlusOffset :
    State.reset.params.Ok ∧
    basePlus .r1 0#6 (State.reset.setReg .r1 0xFE00#16) = State.reset.params.kbsrAddr ∧
    basePlus .r1 2#6 (State.reset.setReg .r1 0xFE00#16) ≠ State.reset.params.kbsrAddr := by decide
theorem witness_GetcReadsOneByte :
    (arrive (State.reset.setInq [0x00#8])).inq = 0x00#8 :: [] ∧
    (arrive arrival).inq = 0x41#8 :: [0x42#8] := by decide
theorem witness_InPromptsReadsAndEchoes :
    (arrive (State.reset.setInq [0x41#8])).inq = 0x41#8 :: [] ∧
    (arrive arrival).inq = 0x41#8 :: [0x42#8] := by decide
theorem witness_PutsWritesLowBytesUpToZero :
    stringState.cell (stringState.reg .r0 + BitVec.ofNat 16 2) = 0#16 ∧
    ∀ k < 2, stringState.cell (stringState.reg .r0 + BitVec.ofNat 16 k) ≠ 0#16 := by decide
/-- The empty string, and a string that wraps at the top of memory. -/
theorem witness_PutsWritesLowBytesUpToZero_edges :
    State.reset.cell (State.reset.reg .r0 + BitVec.ofNat 16 0) = 0#16 ∧
    wrapState.cell (wrapState.reg .r0 + BitVec.ofNat 16 1) = 0#16 ∧
    ∀ k < 1, wrapState.cell (wrapState.reg .r0 + BitVec.ofNat 16 k) ≠ 0#16 := by decide
theorem witness_PutspWritesPackedBytesUpToZero :
    stringState.cell (stringState.reg .r0 + BitVec.ofNat 16 2) = 0#16 ∧
    ∀ k < 2, stringState.cell (stringState.reg .r0 + BitVec.ofNat 16 k) ≠ 0#16 := by decide
theorem witness_HaltEndsTheRun : State.reset.fault = none ∧ State.reset.stopped = false := by decide
/-- Blocked in GETC, the next look with no byte, and with an arrival. -/
def blocked (k : InputTrap) (plan : List Turn) : State := (State.reset.setPhase (.input k)).setPlan plan
theorem witness_InputTrapsBlockOnAnEmptyQueue :
    (arrive State.reset).inq = [] ∧ (blocked .getc []).running = true ∧ (blocked .getc []).fault = none ∧
    (blocked .getc []).phase = .input .getc ∧ CoreTurn (blocked .getc []) [] ∧
    (arrive ((blocked .getc []).setPlan [])).inq = [] ∧
    CoreTurn (blocked .promptedIn [.core, .during [], .stop]) [.during [], .stop] ∧
    (arrive ((blocked .promptedIn [.core, .during [], .stop]).setPlan [.during [], .stop])).inq = [] := by
  decide
theorem witness_BlockedInputCompletes :
    ∀ k, (blocked k [.core, .during [0x41#8]]).running = true ∧
      (blocked k [.core, .during [0x41#8]]).fault = none ∧
      (blocked k [.core, .during [0x41#8]]).phase = .input k ∧
      CoreTurn (blocked k [.core, .during [0x41#8]]) [.during [0x41#8]] ∧
      (arrive ((blocked k [.core, .during [0x41#8]]).setPlan [.during [0x41#8]])).inq = 0x41#8 :: [] ∧
      CoreTurn ((blocked k []).setInq [0x41#8]) [] ∧
      (arrive (((blocked k []).setInq [0x41#8]).setPlan [])).inq = 0x41#8 :: [] :=
  fun _ => ⟨rfl, rfl, rfl, .inr rfl, rfl, .inl ⟨rfl, rfl⟩, rfl⟩
theorem witness_StringScanWithoutZeroNeverEnds :
    (∀ a, ({ State.reset with mem := fullMemory, phase := .scan .puts 0#16 } : State).cell a ≠ 0#16) ∧
    ({ State.reset with mem := fullMemory, phase := .scan .puts 0#16 } : State).running = true ∧
    ({ State.reset with mem := fullMemory, phase := .scan .puts 0#16 } : State).fault = none ∧
    ({ State.reset with mem := fullMemory, phase := .scan .puts 0#16 } : State).phase = .scan .puts 0#16 ∧
    CoreTurn { State.reset with mem := fullMemory, phase := .scan .puts 0#16 } [] ∧
    CoreTurn { State.reset with mem := fullMemory, phase := .scan .puts 0#16, plan := [.core, .stop] }
      [.stop] := by
  refine ⟨fun a => ?_, rfl, rfl, rfl, .inl ⟨rfl, rfl⟩, .inr rfl⟩
  have : fullMemory.readCell a.toNat = 1#16 :=
    readCell_map_one _ _ (List.mem_range.mpr a.isLt)
  simp only [State.cell, this]
  decide
theorem witness_ReservedOpcodesAreFatal :
    Params.default.Ok ∧ fieldOpcode 0x8000#16 = Params.default.opcRsvA ∧
    fieldOpcode 0xDFFF#16 = Params.default.opcRsvB := by decide

/-- For the statements about `exec i s = .next t`: an instruction of each side of each of their clauses. -/
theorem witness_RegistersChangeOnlyAsDestination :
    ∃ t, exec (.addImm .r1 .r1 1#5) State.reset = .next t ∧ .r0 ∉ (Instr.addImm .r1 .r1 1#5).destRegs :=
  ⟨_, rfl, by decide⟩
theorem witness_CondChangesOnlyByFlagWriters :
    (∃ t, exec (.jsr 0#11) State.reset = .next t ∧ (Instr.jsr 0#11).writesCond = false) ∧
    (∃ t, exec (.lea .r0 0#9) State.reset = .next t ∧ (Instr.lea .r0 0#9).writesCond = true) ∧
    (∃ t, exec .trapGetc State.reset = .next t ∧ Instr.trapGetc.writesCond = true ∧
      t.phase = .input .getc) := ⟨⟨_, rfl, rfl⟩, ⟨_, rfl, rfl⟩, ⟨_, rfl, rfl, rfl⟩⟩
theorem witness_PcChangesOnlyByTransfers :
    ∃ t, exec (.st .r0 0#9) State.reset = .next t ∧ (Instr.st .r0 0#9).transfers = false :=
  ⟨_, rfl, by decide⟩
theorem witness_CellsChangeOnlyByStoreOrPoll :
    ∃ t, exec (.sti .r0 0#9) (State.reset.setPc Params.default.kbsrAddr) = .next t ∧
      (Instr.sti .r0 0#9).storeAddr (State.reset.setPc Params.default.kbsrAddr) ≠ some 0x4000#16 ∧
      Params.default.kbsrAddr ∈ (Instr.sti .r0 0#9).readAddrs (State.reset.setPc Params.default.kbsrAddr) ∧
      (0x4000#16 : Word) ≠ Params.default.kbsrAddr ∧ (0x4000#16 : Word) ≠ Params.default.kbdrAddr :=
  ⟨_, rfl, by decide⟩
theorem witness_OnlyIllegalEncodingsAreFatal :
    (∃ t, exec .trapHalt State.reset = .next t ∧ Instr.trapHalt.illegal = false) ∧
    (∃ t, exec (.trapUnknown 0#8) State.reset = .next t ∧ (Instr.trapUnknown 0#8).illegal = true) :=
  ⟨⟨_, rfl, rfl⟩, ⟨_, rfl, rfl⟩⟩

theorem witness_StepRunsDecodedInstruction :
    (at3000 0x14FF).Ready ∧ CoreTurn (at3000 0x14FF) [] ∧ (at3000 0x14FF).plan = [] ∧
    (at3000 0x14FF).pc ≠ (at3000 0x14FF).params.kbsrAddr ∧
    decode (at3000 0x14FF).params (memRead (at3000 0x14FF).pc ((at3000 0x14FF).setPlan [])).1 =
      .addImm .r2 .r3 31#5 ∧
    decode (at3000 0x14FF).params ((at3000 0x14FF).cell (at3000 0x14FF).pc) = .addImm .r2 .r3 31#5 ∧
    CoreTurn ((at3000 0x14FF).setPlan [.core, .stop]) [.stop] := by decide
/-- By default 0x8000 is a reserved word and 0x0000 a BR. -/
theorem witness_FetchAtStatusCellPolls :
    State.reset.params.Ok ∧ (statusFetch [0x41#8]).Ready ∧ CoreTurn (statusFetch [0x41#8]) [] ∧
    CoreTurn ((statusFetch []).setPlan [.core, .during [0x41#8]]) [.during [0x41#8]] ∧
    (statusFetch [0x41#8]).pc = (statusFetch [0x41#8]).params.kbsrAddr ∧
    (arrive ((statusFetch [0x41#8]).setPlan [])).inq = 0x41#8 :: [] ∧
    (arrive ((statusFetch []).setPlan [.during [0x41#8]])).inq = 0x41#8 :: [] ∧
    (arrive ((statusFetch []).setPlan [])).inq = [] ∧
    decode (statusFetch []).params 0x8000#16 = .reservedA 0#12 ∧
    decode (statusFetch []).params 0#16 = .br 0#3 0#9 ∧
    (statusFetch []).params = Params.default := ⟨test_params_ok, by decide⟩
/-- ST with offset 0, STR with R2 at `pc`, STI through a pointer to `pc`. -/
theorem witness_StoredWordIsFetchedNext :
    State.reset.Ready ∧ State.reset.pc ≠ State.reset.params.kbsrAddr ∧
    (∃ t, (Instr.st .r0 0#9).storeReg = some .r0 ∧
      (Instr.st .r0 0#9).storeAddr State.reset = some State.reset.pc ∧
      exec (.st .r0 0#9) State.reset = .next t ∧ CoreTurn t []) ∧
    (∃ t, (Instr.str .r0 .r2 0#6).storeAddr (State.reset.setReg .r2 0x3000#16) = some State.reset.pc ∧
      exec (.str .r0 .r2 0#6) (State.reset.setReg .r2 0x3000#16) = .next t ∧ CoreTurn t []) ∧
    (∃ t, (Instr.sti .r0 1#9).storeAddr (State.reset.setCell 0x3001#16 0x3000#16) = some State.reset.pc ∧
      exec (.sti .r0 1#9) (State.reset.setCell 0x3001#16 0x3000#16) = .next t ∧ CoreTurn t []) :=
  ⟨by decide, by decide, ⟨_, rfl, by decide, rfl, .inl ⟨rfl, rfl⟩⟩, ⟨_, by decide, rfl, .inl ⟨rfl, rfl⟩⟩,
    ⟨_, by decide, rfl, .inl ⟨rfl, rfl⟩⟩⟩
theorem witness_HostAppendTurn :
    (State.reset.setPlan [.append 0x41#8]).plan = .append 0x41#8 :: [] ∧
    arrival.plan = .during [0x41#8, 0x42#8] :: [.stop] ∧
    ∀ bs later, State.reset.plan ≠ .during bs :: later := ⟨rfl, rfl, fun _ _ h => nomatch h⟩
theorem witness_HostStopTurn :
    (State.reset.setPlan [.stop]).plan = .stop :: [] ∧ (State.reset.setPlan [.stop]).running = true ∧
    (State.reset.setPlan [.stop]).phase = .boundary ∧
    ¬((State.reset.setPhase (.input .getc)).running = true ∧
      (State.reset.setPhase (.input .getc)).phase = .boundary) := by decide
theorem witness_EndedMachineTakesNoStep :
    (State.reset.setRunning false).running = false ∧ (State.reset.setRunning false).plan = [] ∧
    (raiseFatal (.unknownTrapVector 0#8) State.reset).fault ≠ none ∧
    ((State.reset.setRunning false).setPlan [.core]).plan = .core :: [] := by decide
/-- After the end of a run only the host still has turns. -/
theorem witness_EndOfRunIsFinal :
    ∃ t, step { raiseFatal (.unknownTrapVector 0#8) State.reset with plan := [.append 0#8], stopped := true } =
      .next t ∧ (raiseFatal (.unknownTrapVector 0#8) State.reset).fault = some (.unknownTrapVector 0#8) :=
  ⟨_, rfl, rfl⟩
theorem witness_RunEndsInThreeWays :
    (∃ t, step (State.reset.setPlan [.stop]) = .next t ∧ t.running = false) ∧
    (∃ t, step (at3000 0xF000) = .next t ∧ t.running = false) ∧
    (∃ t, step (at3000 0xF025) = .next t ∧ t.running = false) :=
  ⟨⟨_, rfl, rfl⟩, ⟨_, rfl, rfl⟩, ⟨_, rfl, rfl⟩⟩
theorem witness_EveryTurnKeepsTheInvariant :
    State.reset.Inv ∧ ∃ t, step State.reset = .next t := ⟨⟨test_params_ok, by decide⟩, _, rfl⟩
theorem witness_ResetMeetsTheInvariant : Params.default.Ok ∧ otherParams.Ok :=
  ⟨test_params_ok, test_other_params_ok⟩
theorem witness_ExactlyOneFlagIsKept :
    OneFlag ((at3000 0x5020).setCond 4#16).params ((at3000 0x5020).setCond 4#16).cond ∧
    ∃ t, step ((at3000 0x5020).setCond 4#16) = .next t := ⟨by decide, _, rfl⟩
theorem witness_OutputHistoryOnlyGrows : ∃ t, step (at3000 0xF021) = .next t := ⟨_, rfl⟩
theorem witness_InputTakenOneByteATime :
    (∃ t, step ((at3000 0xF020).setInq [0x41#8]) = .next t ∧
      ((at3000 0xF020).setInq [0x41#8]).params = Params.default) ∧
    (∃ t, step arrival = .next t) ∧ (∃ t, step (State.reset.setPlan [.append 0x41#8]) = .next t) :=
  ⟨⟨_, rfl, rfl⟩, ⟨_, rfl⟩, ⟨_, rfl⟩⟩
/-- A store, a poll by the fetch, a poll by LDR. -/
theorem witness_MemoryChangesOnlyByStoreOrPoll :
    (∃ t, step ((at3000 0x37FF).setReg .r3 0x1111#16) = .next t ∧
      t.cell 0x3000#16 ≠ ((at3000 0x37FF).setReg .r3 0x1111#16).cell 0x3000#16) ∧
    (∃ t, step (statusFetch [0x41#8]) = .next t ∧
      t.cell Params.default.kbdrAddr ≠ (statusFetch [0x41#8]).cell Params.default.kbdrAddr) ∧
    (∃ t, step (((at3000 0x6040).setReg .r1 0xFE00#16).setInq [0x41#8]) = .next t ∧
      t.cell Params.default.kbdrAddr ≠
        (((at3000 0x6040).setReg .r1 0xFE00#16).setInq [0x41#8]).cell Params.default.kbdrAddr) :=
  ⟨⟨_, rfl, by decide⟩, ⟨_, rfl, by decide⟩, ⟨_, rfl, by decide⟩⟩
/-- An origin of 0xFFFE and three words: two are stored. -/
theorem witness_LoadStoresTheImage :
    1 < min ([0x11#8, 0x11#8, 0x22#8, 0x22#8, 0x33#8, 0x33#8].length / 2)
      (65536 - ((0xFF#8).toNat * 256 + (0xFE#8).toNat)) ∧
    (0x0000#16).toNat < (0xFF#8).toNat * 256 + (0xFE#8).toNat := by decide
theorem witness_RunBeginsAtEntryAddress :
    ∃ s, State.boot Params.default [[0x30#8, 0x00#8, 0xF0#8, 0x25#8], [0x40#8, 0x00#8]] [0x41#8] [.core] =
      some s ∧ Params.default.kbsrAddr ≠ 0x3000#16 := ⟨_, rfl, by decide⟩

end Sys2Proof.Tests
end

/-! PROOFS, family 00_scope: decoding is the inverse of encoding (O1), sign extension (O7), the core's turn
(O43), the reset state (O52, O57) and the invariant every turn keeps (O51). -/

namespace Sys2Proof

/-! ### Decoding an instruction's word (R83 to R88) -/

/-- A vector outside the six selects TRAP's fallback row (R86, R204). -/
theorem decodeTrap_of_wellFormed {vec : BitVec 8} (h : (Instr.trapUnknown vec).wellFormed = true) :
    decodeTrap vec = .trapUnknown vec := by
  simp only [Instr.wellFormed, Config.definedVectors, Bool.not_eq_true', List.contains_eq_mem,
    decide_eq_false_iff_not, List.mem_cons, List.not_mem_nil, or_false, not_or] at h
  simp [decodeTrap, h]

/-- The decoder reads nothing but the fields of the row: a word that holds an instruction's fields decodes
to that instruction, whatever its other bits are. -/
theorem decode_eq_of_fields {p : Params} {w : Word} {i : Instr} (hp : p.opcodes.Nodup)
    (hi : i.wellFormed = true) (hf : ∀ f ∈ i.fields p, fieldAt f.lo f.width w = f.bits) :
    decode p w = i := by
  have clear : ∀ {b : BitVec 1}, b = 0#1 → b ≠ 1#1 := by decide
  cases i with simp only [Instr.fields, formatRRR, formatRRI, formatRR, formatBR, formatR, formatJ,
    formatJR, formatM9, formatM6, formatT, formatX, opField, regField, List.forall_mem_cons,
    List.not_mem_nil, false_imp_iff, implies_true, and_true] at hf
  | addReg dr sr1 sr2 =>
    obtain ⟨op, hd, hs, mode, ht⟩ := hf
    rw [decode_addReg hp op (clear mode), regAt_of_fieldAt hd, regAt_of_fieldAt hs, regAt_of_fieldAt ht]
  | addImm dr sr1 imm5 =>
    obtain ⟨op, hd, hs, mode, himm⟩ := hf
    rw [decode_addImm hp op mode, regAt_of_fieldAt hd, regAt_of_fieldAt hs, himm]
  | andReg dr sr1 sr2 =>
    obtain ⟨op, hd, hs, mode, ht⟩ := hf
    rw [decode_andReg hp op (clear mode), regAt_of_fieldAt hd, regAt_of_fieldAt hs, regAt_of_fieldAt ht]
  | andImm dr sr1 imm5 =>
    obtain ⟨op, hd, hs, mode, himm⟩ := hf
    rw [decode_andImm hp op mode, regAt_of_fieldAt hd, regAt_of_fieldAt hs, himm]
  | not dr sr =>
    obtain ⟨op, hd, hs⟩ := hf
    rw [decode_not hp op, regAt_of_fieldAt hd, regAt_of_fieldAt hs]
  | br nzp off9 =>
    obtain ⟨op, hnzp, hoff⟩ := hf
    rw [decode_br op, hnzp, hoff]
  | jmp base =>
    obtain ⟨op, hb⟩ := hf
    rw [decode_jmp hp op, regAt_of_fieldAt hb]
  | jsr off11 =>
    obtain ⟨op, bit11, hoff⟩ := hf
    rw [decode_jsr hp op bit11, hoff]
  | jsrr base =>
    obtain ⟨op, bit11, hb⟩ := hf
    rw [decode_jsrr hp op (clear bit11), regAt_of_fieldAt hb]
  | ld dr off9 =>
    obtain ⟨op, hd, hoff⟩ := hf
    rw [decode_ld hp op, regAt_of_fieldAt hd, hoff]
  | ldi dr off9 =>
    obtain ⟨op, hd, hoff⟩ := hf
    rw [decode_ldi hp op, regAt_of_fieldAt hd, hoff]
  | ldr dr base off6 =>
    obtain ⟨op, hd, hb, hoff⟩ := hf
    rw [decode_ldr hp op, regAt_of_fieldAt hd, regAt_of_fieldAt hb, hoff]
  | lea dr off9 =>
    obtain ⟨op, hd, hoff⟩ := hf
    rw [decode_lea hp op, regAt_of_fieldAt hd, hoff]
  | st sr off9 =>
    obtain ⟨op, hs, hoff⟩ := hf
    rw [decode_st hp op, regAt_of_fieldAt hs, hoff]
  | sti sr off9 =>
    obtain ⟨op, hs, hoff⟩ := hf
    rw [decode_sti hp op, regAt_of_fieldAt hs, hoff]
  | str sr base off6 =>
    obtain ⟨op, hs, hb, hoff⟩ := hf
    rw [decode_str hp op, regAt_of_fieldAt hs, regAt_of_fieldAt hb, hoff]
  | trapGetc | trapOut | trapPuts | trapIn | trapPutsp | trapHalt =>
    obtain ⟨op, hvec⟩ := hf
    rw [decode_trap hp op, fieldVec, hvec]
    decide
  | trapUnknown vec =>
    obtain ⟨op, hvec⟩ := hf
    rw [decode_trap hp op, fieldVec, hvec, decodeTrap_of_wellFormed hi]
  | reservedA low =>
    obtain ⟨op, hlow⟩ := hf
    rw [decode_rsvA hp op, fieldLow12, hlow]
  | reservedB low =>
    obtain ⟨op, hlow⟩ := hf
    rw [decode_rsvB hp op, fieldLow12, hlow]

/-- Settles O1: the encoder's word holds the fields of the instruction's row, and a word with those fields
decodes to that instruction. -/
theorem decodeEncodeRoundTrip : Obligations.DecodeEncodeRoundTrip := by
  unfold Obligations.DecodeEncodeRoundTrip
  intro p i ⟨hnodup, _, _, _, hlay⟩ hi
  exact decode_eq_of_fields hnodup hi fun f hf => fieldAt_encode hlay i hf

end Sys2Proof

namespace Sys2Proof.Machine

/-! ### Sign extension (R11) -/

/-- The top bit of the low `n` bits of a value is its bit `n - 1`. -/
theorem msb_extractLsb'_zero {n : Nat} (v : Word) (hn : 1 ≤ n) :
    (v.extractLsb' 0 n).msb = v.getLsbD (n - 1) := by
  simp [BitVec.msb_eq_getLsbD_last, show n - 1 < n by omega]

/-- A bit of the sign extension of the low `n` bits (R11). -/
theorem getLsbD_sext_low {n i : Nat} (v : Word) (hn : 1 ≤ n) (hn16 : n ≤ 16) (hi : i < 16) :
    (sext (v.extractLsb' 0 n)).getLsbD i = if i < n then v.getLsbD i else v.getLsbD (n - 1) := by
  rw [sext_eq_signExtend _ hn16, BitVec.getLsbD_signExtend, msb_extractLsb'_zero v hn]
  by_cases hin : i < n <;> simp [hi, hin]

/-- Settles O7: the spec's extension is the two's-complement one, read off bit by bit. -/
theorem signExtensionReplicatesTopBit : Obligations.SignExtensionReplicatesTopBit := by
  unfold Obligations.SignExtensionReplicatesTopBit
  intro n v hn hn16
  refine ⟨fun i hi => getLsbD_sext_low v hn hn16 hi, BitVec.eq_of_getLsbD_eq fun i hi => ?_⟩
  have low := getLsbD_sext_low (i := i) v hn hn16 (by omega)
  simpa [hi] using low

/-! ### The core's turn (R14, R24) -/

/-- In a state ready for a step the core's turn runs what the word read at `pc` decodes to, in the state the
read leaves with `pc` advanced. -/
theorem step_of_ready {s : State} {later : List Turn} (hs : s.Ready) (ht : CoreTurn s later) :
    step s = exec (decode s.params (memRead s.pc (s.setPlan later)).1)
      ((memRead s.pc (s.setPlan later)).2.setPc (s.pc + 1#16)) := by
  obtain ⟨hrun, hfault, hphase⟩ := hs
  rw [step_of_coreTurn ht, coreTurn_ready (s := s.setPlan later) hrun hfault hphase]
  rfl

/-- Settles O43: at the status cell by the step lemma, at an ordinary cell because the read there answers
the cell and leaves the state. -/
theorem stepRunsDecodedInstruction : Obligations.StepRunsDecodedInstruction := by
  unfold Obligations.StepRunsDecodedInstruction
  intro s i later hs ht
  refine ⟨fun hi => ?_, fun hpc hi => ?_, fun hplan => ?_⟩
  · rw [step_of_ready hs ht, hi]
  · have read : memRead s.pc (s.setPlan later) = (s.cell s.pc, s.setPlan later) := by
      rw [memRead, afterRead_of_ne (s := s.setPlan later) hpc, cell_setPlan]
    rw [step_of_ready hs ht, read, hi]
  · rcases ht with ⟨_, rfl⟩ | hcore
    · exact setPlan_self hplan
    · rw [hplan] at hcore
      cases hcore

/-! ### The reset state (R40) -/

@[simp] theorem reg_resetWith (p : Params) (r : Reg) : (State.resetWith p).reg r = 0#16 := by
  cases r <;> rfl

@[simp] theorem cell_resetWith (p : Params) (a : Word) : (State.resetWith p).cell a = 0#16 := rfl

/-- The reset state of a machine whose parameters are as R8 asks meets the invariant. -/
theorem inv_resetWith {p : Params} (hp : p.Ok) : (State.resetWith p).Inv :=
  ⟨hp, Memory.wf_nil, .inl rfl, fun _ => ⟨rfl, rfl⟩, fun _ => rfl, fun _ => rfl⟩

/-- Settles O52: every clause of the invariant holds of the values reset gives. -/
theorem resetMeetsTheInvariant : Obligations.ResetMeetsTheInvariant := by
  unfold Obligations.ResetMeetsTheInvariant
  exact ⟨fun _ => inv_resetWith, inv_resetWith (by decide)⟩

/-- Settles O57: registers and cells by their lemmas, the other fields as reset names them. -/
theorem resetValues : Obligations.ResetValues := by
  unfold Obligations.ResetValues
  exact ⟨fun p => ⟨reg_resetWith p, rfl, rfl, rfl, rfl, cell_resetWith p, rfl, ⟨rfl, rfl, rfl⟩, rfl⟩,
    rfl, rfl⟩

/-! ### What keeps a run going -/

/-- `t` follows `s` without an end of the run: the parameters and the records of an end are as before,
memory stays in canonical form, and `cond` is as before or one of the flag values (R26 to R33). -/
structure Proceeds (s t : State) : Prop where
  run : SameRun s t
  mem : s.mem.wf → t.mem.wf
  cond : t.cond = s.cond ∨ OneFlag s.params t.cond

/-- Updates of registers, `pc`, phase, queue, output and plan do not touch what `Proceeds` speaks of. -/
theorem Proceeds.of_same {s t : State} (hr : SameRun s t) (hm : t.mem = s.mem) (hc : t.cond = s.cond) :
    Proceeds s t :=
  ⟨hr, fun h => hm ▸ h, .inl hc⟩

theorem Proceeds.refl (s : State) : Proceeds s s := .of_same ⟨rfl, rfl, rfl, rfl⟩ rfl rfl

theorem Proceeds.params_eq {s t : State} (h : Proceeds s t) : t.params = s.params := h.run.1

theorem Proceeds.running_eq {s t : State} (h : Proceeds s t) : t.running = s.running := h.run.2.1

theorem Proceeds.trans {s t u : State} (h₁ : Proceeds s t) (h₂ : Proceeds t u) : Proceeds s u := by
  obtain ⟨⟨hp₁, hr₁, hf₁, hs₁⟩, hm₁, hc₁⟩ := h₁
  obtain ⟨⟨hp₂, hr₂, hf₂, hs₂⟩, hm₂, hc₂⟩ := h₂
  refine ⟨⟨hp₂.trans hp₁, hr₂.trans hr₁, hf₂.trans hf₁, hs₂.trans hs₁⟩, hm₂ ∘ hm₁, ?_⟩
  rcases hc₂ with hc₂ | hc₂
  · rwa [hc₂]
  · exact .inr (hp₁ ▸ hc₂)

section
variable (s : State)

theorem proceeds_setPc (v : Word) : Proceeds s (s.setPc v) := .of_same ⟨rfl, rfl, rfl, rfl⟩ rfl rfl
theorem proceeds_setReg (r : Reg) (v : Word) : Proceeds s (s.setReg r v) :=
  .of_same ⟨rfl, rfl, rfl, rfl⟩ rfl rfl
theorem proceeds_setInq (q : List Byte) : Proceeds s (s.setInq q) :=
  .of_same ⟨rfl, rfl, rfl, rfl⟩ rfl rfl
theorem proceeds_setPlan (p : List Turn) : Proceeds s (s.setPlan p) :=
  .of_same ⟨rfl, rfl, rfl, rfl⟩ rfl rfl
theorem proceeds_setPhase (p : Phase) : Proceeds s (s.setPhase p) :=
  .of_same ⟨rfl, rfl, rfl, rfl⟩ rfl rfl
theorem proceeds_outWrite (bs : List Byte) : Proceeds s (s.outWrite bs) :=
  .of_same ⟨rfl, rfl, rfl, rfl⟩ rfl rfl
theorem proceeds_hostAppend (b : Byte) : Proceeds s (hostAppend b s) :=
  .of_same ⟨rfl, rfl, rfl, rfl⟩ rfl rfl
theorem proceeds_arrive : Proceeds s (arrive s) :=
  .of_same ⟨arrive_params s, arrive_running s, arrive_fault s, arrive_stopped s⟩ (arrive_mem s)
    (arrive_cond s)

theorem proceeds_setCell (a v : Word) : Proceeds s (s.setCell a v) :=
  ⟨⟨rfl, rfl, rfl, rfl⟩, fun h => wf_setCell h a v, .inl rfl⟩

theorem proceeds_afterRead (a : Word) : Proceeds s (afterRead a s) :=
  ⟨⟨afterRead_params a s, afterRead_running a s, afterRead_fault a s, afterRead_stopped a s⟩,
    fun h => wf_afterRead h a, .inl (afterRead_cond a s)⟩

/-- A classified value is one of the three flag values (R27). -/
theorem oneFlag_classify (p : Params) (v : Word) : OneFlag p (classify p v) := by
  rcases classify_cases p v with ⟨_, h⟩ | ⟨_, _, h⟩ | ⟨_, _, h⟩
  · exact .inr (.inl h)
  · exact .inr (.inr h)
  · exact .inl h

theorem proceeds_writeResult (dr : Reg) (v : Word) : Proceeds s (writeResult dr v s) := by
  rw [writeResult_eq]
  exact ⟨⟨rfl, rfl, rfl, rfl⟩, id, .inr (oneFlag_classify s.params v)⟩

theorem proceeds_loadFrom (dr : Reg) (a : Word) : Proceeds s (loadFrom dr a s) :=
  (proceeds_afterRead s a).trans (proceeds_writeResult _ dr _)

theorem proceeds_finishGetc : Proceeds s (finishGetc s) := by
  cases hq : (arrive s).inq with
  | nil =>
    rw [finishGetc_blocked hq]
    exact (proceeds_arrive s).trans (proceeds_setPhase _ _)
  | cons c rest =>
    rw [finishGetc_ready hq]
    exact (proceeds_arrive s).trans <| (proceeds_setInq _ rest).trans <|
      (proceeds_writeResult _ .r0 _).trans (proceeds_setPhase _ _)

theorem proceeds_finishIn : Proceeds s (finishIn s) := by
  cases hq : (arrive s).inq with
  | nil =>
    rw [finishIn_blocked hq]
    exact (proceeds_arrive s).trans (proceeds_setPhase _ _)
  | cons c rest =>
    rw [finishIn_ready hq]
    exact (proceeds_arrive s).trans <| (proceeds_setInq _ rest).trans <|
      (proceeds_outWrite _ [c]).trans <| (proceeds_writeResult _ .r0 _).trans (proceeds_setPhase _ _)

theorem proceeds_runScan (k : StringTrap) (a : Word) : Proceeds s (runScan k a s) := by
  obtain ⟨bs, h | ⟨next, h⟩⟩ := runScan_cases k a s
  all_goals
    rw [h]
    exact (proceeds_outWrite s bs).trans (proceeds_setPhase _ _)

theorem proceeds_fetch : Proceeds s (fetch s).2 :=
  (proceeds_afterRead s s.pc).trans (proceeds_setPc _ _)

end

/-! ### What an instruction does to a run -/

/-- What an instruction can do to a run: keep it going, end it by HALT (R202), or end it with a fatal
condition (R204, R220, R221). -/
theorem exec_next_cases {i : Instr} {s t : State} (h : exec i s = .next t) :
    Proceeds s t ∨
    (i = .trapHalt ∧ t = (s.outWrite s.params.haltNotice).setRunning false) ∨
    (i.illegal = true ∧ ∃ f, t = raiseFatal f s) := by
  cases i <;> cases h
  case addReg | addImm | andReg | andImm | not | lea => exact .inl (proceeds_writeResult s _ _)
  case br nzp off9 =>
    left
    split
    · exact proceeds_setPc s _
    · exact .refl s
  case jmp => exact .inl (proceeds_setPc s _)
  case jsr | jsrr => exact .inl ((proceeds_setReg s .r7 s.pc).trans (proceeds_setPc _ _))
  case ld | ldr => exact .inl (proceeds_loadFrom s _ _)
  case ldi => exact .inl ((proceeds_afterRead s _).trans (proceeds_loadFrom _ _ _))
  case st | str => exact .inl (proceeds_setCell s _ _)
  case sti => exact .inl ((proceeds_afterRead s _).trans (proceeds_setCell _ _ _))
  case trapGetc => exact .inl (proceeds_finishGetc s)
  case trapOut => exact .inl (proceeds_outWrite s _)
  case trapPuts | trapPutsp => exact .inl (proceeds_runScan s _ _)
  case trapIn => exact .inl ((proceeds_outWrite s _).trans (proceeds_finishIn _))
  case trapHalt => exact .inr (.inl ⟨rfl, rfl⟩)
  case trapUnknown | reservedA | reservedB => exact .inr (.inr ⟨rfl, _, rfl⟩)

/-- No instruction changes the parameters (log entry 20). -/
theorem exec_params {i : Instr} {s t : State} (h : exec i s = .next t) : t.params = s.params := by
  rcases exec_next_cases h with hgo | ⟨_, rfl⟩ | ⟨_, f, rfl⟩
  · exact hgo.params_eq
  · rfl
  · rfl

/-! ### The invariant (R8, R29 to R33, R239) -/

/-- The invariant goes on to a state the run proceeds to, when the run is on there or the core stands where
it stood. -/
theorem Proceeds.inv {s t : State} (h : Proceeds s t) (hp : s.running = true ∨ t.phase = s.phase)
    (hs : s.Inv) : t.Inv := by
  obtain ⟨⟨hparams, hrun, hfault, hstop⟩, hmem, hcond⟩ := h
  obtain ⟨ok, wf, cond, on, off, ends⟩ := hs
  refine ⟨hparams ▸ ok, hmem wf, ?_, ?_, ?_, ?_⟩
  · rw [hparams]
    rcases hcond with hc | hc
    · rwa [hc]
    · exact .inr hc
  · rwa [hrun, hfault, hstop]
  · intro hended
    rw [hrun] at hended
    rcases hp with hon | hphase
    · rw [hon] at hended; cases hended
    · rw [hphase, off hended]
  · rwa [hstop, hfault]

/-- An instruction run between steps keeps the invariant: HALT and a fatal condition end the run there, with
no stop recorded. -/
theorem exec_inv {i : Instr} {s t : State} (h : exec i s = .next t) (hrun : s.running = true)
    (hphase : s.phase = .boundary) (hs : s.Inv) : t.Inv := by
  rcases exec_next_cases h with hgo | ⟨_, rfl⟩ | ⟨_, f, rfl⟩
  · exact hgo.inv (.inl hrun) hs
  all_goals
    obtain ⟨ok, wf, cond, on, _, ends⟩ := hs
    obtain ⟨_, hstop⟩ := on hrun
  · exact ⟨ok, wf, cond, fun hon => absurd hon Bool.false_ne_true, fun _ => hphase, ends⟩
  · exact ⟨ok, wf, cond, fun hon => absurd hon Bool.false_ne_true, fun _ => hphase,
      fun hon => absurd (hstop.symm.trans hon) Bool.false_ne_true⟩

/-- The host's stop is recorded between two steps of a run, or has no effect (R240). -/
theorem hostStop_cases (s : State) :
    (s.running = true ∧ s.phase = .boundary ∧ hostStop s = { s with running := false, stopped := true }) ∨
    hostStop s = s := by
  unfold hostStop
  split
  · next h => exact .inl ⟨h.1, h.2, rfl⟩
  · exact .inr rfl

theorem hostStop_params (s : State) : (hostStop s).params = s.params := by
  rcases hostStop_cases s with ⟨_, _, h⟩ | h <;> rw [h]

theorem hostStop_inv {s : State} (hs : s.Inv) : (hostStop s).Inv := by
  rcases hostStop_cases s with ⟨hrun, hphase, h⟩ | h <;> rw [h]
  · obtain ⟨ok, wf, cond, on, _, _⟩ := hs
    exact ⟨ok, wf, cond, fun hon => absurd hon Bool.false_ne_true, fun _ => hphase, fun _ => (on hrun).1⟩
  · exact hs

/-- Every transition keeps the run going, is the host's stop, or runs an instruction between two steps of the
run from a state that keeps it going. -/
theorem step_next_proceeds {s t : State} (h : step s = .next t) :
    (Proceeds s t ∧ (s.running = true ∨ t.phase = s.phase)) ∨
    (∃ rest, t = hostStop (s.setPlan rest)) ∨
    (∃ i u, Proceeds s u ∧ u.running = true ∧ u.phase = .boundary ∧ exec i u = .next t) := by
  rcases step_next_cases h with ⟨b, rest, _, rfl⟩ | ⟨bs, rest, _, rfl⟩ | ⟨rest, _, rfl⟩ |
    ⟨rest, _, hrun, _, hcore⟩
  · exact .inl ⟨(proceeds_setPlan s rest).trans (proceeds_hostAppend _ b), .inr rfl⟩
  · exact .inl ⟨proceeds_arrive s, .inr (arrive_phase s)⟩
  · exact .inr (.inl ⟨rest, rfl⟩)
  have plan := proceeds_setPlan s rest
  rcases hcore with ⟨hphase, hexec⟩ | ⟨_, rfl⟩ | ⟨_, rfl⟩ | ⟨k, a, _, rfl⟩
  · have fetched := plan.trans (proceeds_fetch _)
    exact .inr (.inr ⟨_, _, fetched, fetched.running_eq.trans hrun, (afterRead_phase _ _).trans hphase, hexec⟩)
  · exact .inl ⟨plan.trans (proceeds_finishGetc _), .inl hrun⟩
  · exact .inl ⟨plan.trans (proceeds_finishIn _), .inl hrun⟩
  · exact .inl ⟨plan.trans (proceeds_runScan _ k a), .inl hrun⟩

/-- Settles O51: by what a transition can be. Where the run goes on the invariant does; the host's stop and
the instructions that end a run keep it by their own lemmas. -/
theorem everyTurnKeepsTheInvariant : Obligations.EveryTurnKeepsTheInvariant := by
  unfold Obligations.EveryTurnKeepsTheInvariant
  intro s t h
  rcases step_next_proceeds h with ⟨hgo, hphase⟩ | ⟨rest, rfl⟩ | ⟨i, u, hgo, hrun, hphase, hexec⟩
  · exact ⟨hgo.params_eq, hgo.inv hphase⟩
  · exact ⟨hostStop_params _, fun hs => hostStop_inv ((proceeds_setPlan s rest).inv (.inr rfl) hs)⟩
  · have hon : s.running = true := hgo.running_eq.symm.trans hrun
    exact ⟨(exec_params hexec).trans hgo.params_eq,
      fun hs => exec_inv hexec hrun hphase (hgo.inv (.inl hon) hs)⟩

end Sys2Proof.Machine

/-! PROOFS, family 10_state: the flags (O11), what exec changes of the registers, `cond` and `pc` (O37 to
O40), the host's append (O46), the end of a run (O48, O49, O50), the flag every turn keeps (O53), the output
history (O54) and the input queue (O55). -/

namespace Sys2Proof.Machine

/-! ### How a turn can end a run (R30, R239) -/

/-- A transition keeps the run going, or ends it: by the host's stop between two steps of it, or by an
instruction fetched in a state ready for a step, HALT or an illegal encoding. -/
theorem step_next_ends {s t : State} (h : step s = .next t) :
    Proceeds s t ∨
    (∃ rest, s.plan = .stop :: rest ∧ t = { s with plan := rest, running := false, stopped := true }) ∨
    (∃ later u, CoreTurn s later ∧ s.Ready ∧ Proceeds s u ∧
      ((decode s.params (fetch (s.setPlan later)).1 = .trapHalt ∧
          t = (u.outWrite u.params.haltNotice).setRunning false) ∨
        ((decode s.params (fetch (s.setPlan later)).1).illegal = true ∧ ∃ f, t = raiseFatal f u))) := by
  rcases step_next_cases h with ⟨b, rest, _, rfl⟩ | ⟨bs, rest, _, rfl⟩ | ⟨rest, hstop, rfl⟩ |
    ⟨rest, hturn, hrun, hfault, hcore⟩
  · exact .inl ((proceeds_setPlan s rest).trans (proceeds_hostAppend _ b))
  · exact .inl (proceeds_arrive s)
  · rcases hostStop_cases (s.setPlan rest) with ⟨_, _, hs⟩ | hs <;> rw [hs]
    · exact .inr (.inl ⟨rest, hstop, rfl⟩)
    · exact .inl (proceeds_setPlan s rest)
  have plan := proceeds_setPlan s rest
  rcases hcore with ⟨hphase, hexec⟩ | ⟨_, rfl⟩ | ⟨_, rfl⟩ | ⟨k, a, _, rfl⟩
  · have fetched := plan.trans (proceeds_fetch _)
    rcases exec_next_cases hexec with hgo | ⟨hhalt, ht⟩ | hfatal
    · exact .inl (fetched.trans hgo)
    · exact .inr (.inr ⟨rest, _, hturn, ⟨hrun, hfault, hphase⟩, fetched, .inl ⟨hhalt, ht⟩⟩)
    · exact .inr (.inr ⟨rest, _, hturn, ⟨hrun, hfault, hphase⟩, fetched, .inr hfatal⟩)
  · exact .inl (plan.trans (proceeds_finishGetc _))
  · exact .inl (plan.trans (proceeds_finishIn _))
  · exact .inl (plan.trans (proceeds_runScan _ k a))

/-- Settles O50: a turn that keeps the run going leaves `running`, so it is one of the turns that end it. -/
theorem runEndsInThreeWays : Obligations.RunEndsInThreeWays := by
  unfold Obligations.RunEndsInThreeWays
  intro s t h hrun hend
  rcases step_next_ends h with hgo | ⟨rest, hplan, rfl⟩ |
    ⟨later, u, hturn, ⟨_, hnone, hphase⟩, ⟨⟨_, _, hfault, hstopped⟩, _, _⟩,
      ⟨hhalt, rfl⟩ | ⟨hillegal, f, rfl⟩⟩
  · rw [hgo.running_eq, hrun] at hend
    cases hend
  · exact .inl ⟨⟨rest, hplan⟩, rfl, rfl⟩
  · exact .inr ⟨later, hturn, ⟨hrun, hnone, hphase⟩, .inr ⟨hhalt, hfault.trans hnone, hstopped⟩⟩
  · exact .inr ⟨later, hturn, ⟨hrun, hnone, hphase⟩, .inl ⟨hillegal, Option.some_ne_none f, hstopped⟩⟩

/-- Settles O49: where the run goes on its records are as before, the host's stop clears none, and an
instruction that ends the run was fetched with `running` set and no fault recorded. -/
theorem endOfRunIsFinal : Obligations.EndOfRunIsFinal := by
  unfold Obligations.EndOfRunIsFinal
  intro s t h
  rcases step_next_ends h with ⟨⟨_, hrun, hfault, hstopped⟩, _, _⟩ | ⟨rest, _, rfl⟩ |
    ⟨later, u, _, ⟨_, hnone, _⟩, ⟨⟨_, _, _, hstopped⟩, _, _⟩, hend⟩
  · rw [hrun, hfault, hstopped]
    exact ⟨id, fun _ => id, id⟩
  · exact ⟨fun _ => rfl, fun _ => id, fun _ => rfl⟩
  · have noFault : ∀ f, s.fault = some f → t.fault = some f := fun f hf => by
      rw [hnone] at hf
      cases hf
    rcases hend with ⟨_, rfl⟩ | ⟨_, f, rfl⟩
    all_goals exact ⟨fun _ => rfl, noFault, hstopped.trans⟩

/-- Where the run goes on, one flag stays set. -/
theorem Proceeds.oneFlag {s t : State} (h : Proceeds s t) (hs : OneFlag s.params s.cond) :
    OneFlag t.params t.cond := by
  rw [h.params_eq]
  rcases h.cond with hc | hc
  · rwa [hc]
  · exact hc

/-- Settles O53: where the run goes on by `Proceeds`, and the end of a run leaves `cond`. -/
theorem exactlyOneFlagIsKept : Obligations.ExactlyOneFlagIsKept := by
  unfold Obligations.ExactlyOneFlagIsKept
  intro s t hs h
  rcases step_next_ends h with hgo | ⟨rest, _, rfl⟩ |
    ⟨later, u, _, _, hgo, ⟨_, rfl⟩ | ⟨_, f, rfl⟩⟩
  · exact hgo.oneFlag hs
  · exact hs
  all_goals exact hgo.oneFlag hs

/-- After the end of a run the core's turn is no step (R24, R30, R234). -/
theorem coreTurn_ended {s : State} (h : s.running = false ∨ s.fault ≠ none) :
    coreTurn s = .fault .runEnded := by
  refine if_neg fun ⟨hrun, hfault⟩ => ?_
  rcases h with h | h
  · exact absurd (h.symm.trans hrun) Bool.false_ne_true
  · exact h hfault

/-- Settles O48: the turn is the core's, with an empty plan or a plan that names it. -/
theorem endedMachineTakesNoStep : Obligations.EndedMachineTakesNoStep := by
  unfold Obligations.EndedMachineTakesNoStep
  intro s hs
  have ended : ∀ later, CoreTurn s later → step s = .fault .runEnded := fun later ht => by
    rw [step_of_coreTurn ht, coreTurn_ended (s := s.setPlan later) hs]
  exact ⟨fun hp => ended [] (.inl ⟨hp, rfl⟩), fun rest hp => ended rest (.inr hp)⟩

/-! ### The flags (R27) -/

/-- With three distinct flag values each tells its class of values from the others. -/
theorem classify_eq_iff {p : Params} (hpz : p.flPos ≠ p.flZro) (hpn : p.flPos ≠ p.flNeg)
    (hzn : p.flZro ≠ p.flNeg) (v : Word) :
    (classify p v = p.flZro ↔ v = 0#16) ∧ (classify p v = p.flNeg ↔ v.msb = true) ∧
    (classify p v = p.flPos ↔ (v ≠ 0#16 ∧ v.msb = false)) := by
  rcases classify_cases p v with ⟨rfl, h⟩ | ⟨h0, hm, h⟩ | ⟨h0, hm, h⟩
  · simp [h, hzn, hpz.symm]
  · simp [h, h0, hm, hzn.symm, hpn.symm]
  · simp [h, h0, hm, hpz, hpn]

/-- Settles O11: by the classification of the register's value; nothing but `cond` is written. -/
theorem setFlagsClassifiesTheRegister : Obligations.SetFlagsClassifiesTheRegister := by
  unfold Obligations.SetFlagsClassifiesTheRegister
  intro r s ⟨_, _, ⟨hpz, hpn, hzn⟩, _, _⟩
  obtain ⟨zero, neg, pos⟩ := classify_eq_iff hpz hpn hzn (s.reg r)
  rw [BitVec.msb_eq_getLsbD_last] at neg pos
  exact ⟨zero, neg, pos, oneFlag_classify _ _, fun v => congrArg State.cond (writeResult_eq r v s),
    fun _ _ => rfl, rfl, fun _ _ => rfl, ⟨rfl, rfl, rfl⟩, ⟨rfl, rfl, rfl, rfl⟩, rfl⟩

/-! ### What an instruction changes of the registers, `cond` and `pc` (R22, R25, R28) -/

/-- The parameters, the registers, `pc` and `cond` are as they were, and the output history at most grew at
its end. -/
structure CoreKept (s t : State) : Prop where
  params : t.params = s.params
  regs : t.regs = s.regs
  pc : t.pc = s.pc
  cond : t.cond = s.cond
  out : s.out <+: t.out

theorem CoreKept.trans {s t u : State} (h₁ : CoreKept s t) (h₂ : CoreKept t u) : CoreKept s u :=
  ⟨h₂.params.trans h₁.params, h₂.regs.trans h₁.regs, h₂.pc.trans h₁.pc, h₂.cond.trans h₁.cond,
    h₁.out.trans h₂.out⟩

section
variable (s : State)

theorem coreKept_refl : CoreKept s s := ⟨rfl, rfl, rfl, rfl, List.prefix_rfl⟩
theorem coreKept_setCell (a v : Word) : CoreKept s (s.setCell a v) :=
  ⟨rfl, rfl, rfl, rfl, List.prefix_rfl⟩
theorem coreKept_setInq (q : List Byte) : CoreKept s (s.setInq q) :=
  ⟨rfl, rfl, rfl, rfl, List.prefix_rfl⟩
theorem coreKept_setPhase (p : Phase) : CoreKept s (s.setPhase p) :=
  ⟨rfl, rfl, rfl, rfl, List.prefix_rfl⟩
theorem coreKept_setRunning (b : Bool) : CoreKept s (s.setRunning b) :=
  ⟨rfl, rfl, rfl, rfl, List.prefix_rfl⟩
theorem coreKept_raiseFatal (f : Fatal) : CoreKept s (raiseFatal f s) :=
  ⟨rfl, rfl, rfl, rfl, List.prefix_rfl⟩
theorem coreKept_outWrite (bs : List Byte) : CoreKept s (s.outWrite bs) :=
  ⟨rfl, rfl, rfl, rfl, List.prefix_append _ _⟩
theorem coreKept_arrive : CoreKept s (arrive s) :=
  ⟨arrive_params s, arrive_regs s, arrive_pc s, arrive_cond s, (arrive_out s) ▸ List.prefix_rfl⟩
theorem coreKept_afterRead (a : Word) : CoreKept s (afterRead a s) :=
  ⟨afterRead_params a s, afterRead_regs a s, afterRead_pc a s, afterRead_cond a s,
    (afterRead_out a s) ▸ List.prefix_rfl⟩

theorem coreKept_runScan (k : StringTrap) (a : Word) : CoreKept s (runScan k a s) := by
  obtain ⟨bs, h | ⟨next, h⟩⟩ := runScan_cases k a s
  all_goals
    rw [h]
    exact (coreKept_outWrite s bs).trans (coreKept_setPhase _ _)

end

/-- `t` is a result written to `dr`, flags included, on a state that kept the core's registers. -/
def ResultWritten (dr : Reg) (s t : State) : Prop := ∃ u v, CoreKept s u ∧ t = writeResult dr v u

/-- `t` keeps the core's registers and stands blocked in an input trap (R208). -/
def InputBlocked (s t : State) : Prop := CoreKept s t ∧ ∃ k, t.phase = .input k

theorem ResultWritten.of_kept {dr : Reg} {s t u : State} (h : CoreKept s t) :
    ResultWritten dr t u → ResultWritten dr s u :=
  fun ⟨w, v, hw, hu⟩ => ⟨w, v, h.trans hw, hu⟩

theorem resultWritten_writeResult (dr : Reg) (v : Word) (s : State) :
    ResultWritten dr s (writeResult dr v s) := ⟨s, v, coreKept_refl s, rfl⟩

theorem resultWritten_loadFrom (dr : Reg) (a : Word) (s : State) :
    ResultWritten dr s (loadFrom dr a s) := ⟨_, _, coreKept_afterRead s a, rfl⟩

/-- From its read on GETC writes R0 with its flags, or is blocked. -/
theorem finishGetc_result (s : State) :
    ResultWritten .r0 s (finishGetc s) ∨ InputBlocked s (finishGetc s) := by
  cases hq : (arrive s).inq with
  | nil =>
    rw [finishGetc_blocked hq]
    exact .inr ⟨(coreKept_arrive s).trans (coreKept_setPhase _ _), _, rfl⟩
  | cons c rest =>
    rw [finishGetc_ready hq]
    exact .inl ⟨((arrive s).setInq rest).setPhase .boundary, zext8 c,
      ((coreKept_arrive s).trans (coreKept_setInq _ rest)).trans (coreKept_setPhase _ _), rfl⟩

/-- From its read on IN writes R0 with its flags, or is blocked. -/
theorem finishIn_result (s : State) :
    ResultWritten .r0 s (finishIn s) ∨ InputBlocked s (finishIn s) := by
  cases hq : (arrive s).inq with
  | nil =>
    rw [finishIn_blocked hq]
    exact .inr ⟨(coreKept_arrive s).trans (coreKept_setPhase _ _), _, rfl⟩
  | cons c rest =>
    rw [finishIn_ready hq]
    exact .inl ⟨(((arrive s).setInq rest).outWrite [c]).setPhase .boundary, zext8 c,
      (((coreKept_arrive s).trans (coreKept_setInq _ rest)).trans (coreKept_outWrite _ [c])).trans
        (coreKept_setPhase _ _), rfl⟩

/-- The four things an instruction can do to the registers, `pc` and `cond`. -/
inductive CoreEffect (i : Instr) (s t : State) : Prop where
  /-- A flag writer writes its destination, then `cond` from it. -/
  | result (dr : Reg) (dest : i.destRegs = [dr]) (writes : i.writesCond = true)
      (written : ResultWritten dr s t)
  /-- A control transfer writes `pc`, JSR and JSRR after their link to R7. -/
  | transfer (v : Word) (moves : i.transfers = true) (plain : i.writesCond = false)
      (written : t = s.setPc v ∨ (i.destRegs = [.r7] ∧ t = (s.setReg .r7 s.pc).setPc v))
  /-- An input trap waits for a byte. -/
  | blocked (same : CoreKept s t) (waits : ∃ k, t.phase = .input k)
  /-- Every other instruction writes none of them. -/
  | kept (plain : i.writesCond = false) (same : CoreKept s t)

/-- What an instruction does to the registers, `pc` and `cond`, by the instruction. -/
theorem exec_effect {i : Instr} {s t : State} (h : exec i s = .next t) : CoreEffect i s t := by
  cases i <;> cases h
  case addReg | addImm | andReg | andImm | not | lea =>
    exact .result _ rfl rfl (resultWritten_writeResult _ _ s)
  case br nzp off9 =>
    split
    · exact .transfer _ rfl rfl (.inl rfl)
    · exact .transfer s.pc rfl rfl (.inl rfl)
  case jmp => exact .transfer _ rfl rfl (.inl rfl)
  case jsr | jsrr => exact .transfer _ rfl rfl (.inr ⟨rfl, rfl⟩)
  case ld | ldr => exact .result _ rfl rfl (resultWritten_loadFrom _ _ s)
  case ldi => exact .result _ rfl rfl (.of_kept (coreKept_afterRead s _) (resultWritten_loadFrom _ _ _))
  case st | str => exact .kept rfl (coreKept_setCell s _ _)
  case sti => exact .kept rfl ((coreKept_afterRead s _).trans (coreKept_setCell _ _ _))
  case trapGetc =>
    rcases finishGetc_result s with hw | ⟨same, waits⟩
    · exact .result _ rfl rfl hw
    · exact .blocked same waits
  case trapIn =>
    have prompt := coreKept_outWrite s s.params.inPrompt
    rcases finishIn_result (s.outWrite s.params.inPrompt) with hw | ⟨same, waits⟩
    · exact .result _ rfl rfl (hw.of_kept prompt)
    · exact .blocked (prompt.trans same) waits
  case trapOut => exact .kept rfl (coreKept_outWrite s _)
  case trapPuts | trapPutsp => exact .kept rfl (coreKept_runScan s _ _)
  case trapHalt => exact .kept rfl ((coreKept_outWrite s _).trans (coreKept_setRunning _ _))
  case trapUnknown | reservedA | reservedB => exact .kept rfl (coreKept_raiseFatal s _)

/-- Settles O37: every arm of `exec` answers a next state. -/
theorem everyInstructionAnswersNext : Obligations.EveryInstructionAnswersNext := by
  unfold Obligations.EveryInstructionAnswersNext
  intro i s
  cases i
  all_goals exact ⟨_, rfl⟩

/-- Settles O38: the only registers written are a result's and the link's. -/
theorem registersChangeOnlyAsDestination : Obligations.RegistersChangeOnlyAsDestination := by
  unfold Obligations.RegistersChangeOnlyAsDestination
  intro i s t h r hr
  cases exec_effect h with
  | result dr dest _ written =>
    obtain ⟨u, v, hu, rfl⟩ := written
    have hne : r ≠ dr := by simpa [dest] using hr
    rw [writeResult_eq, reg_setCond, reg_setReg, if_neg hne, reg_congr hu.regs]
  | transfer v _ _ written =>
    rcases written with rfl | ⟨dest, rfl⟩
    · rfl
    · have hne : r ≠ .r7 := by simpa [dest] using hr
      rw [reg_setPc, reg_setReg, if_neg hne]
  | blocked same _ => exact reg_congr same.regs r
  | kept _ same => exact reg_congr same.regs r

/-- Settles O39: `cond` is written only with a result, which it classifies. -/
theorem condChangesOnlyByFlagWriters : Obligations.CondChangesOnlyByFlagWriters := by
  unfold Obligations.CondChangesOnlyByFlagWriters
  intro i s t h
  cases exec_effect h with
  | result dr dest writes written =>
    obtain ⟨u, v, hu, rfl⟩ := written
    refine ⟨fun hw => absurd (hw.symm.trans writes) Bool.false_ne_true, fun _ => .inl ?_⟩
    simp [dest, writeResult_eq, hu.params]
  | transfer v _ plain written =>
    have same : t.cond = s.cond := by rcases written with rfl | ⟨_, rfl⟩ <;> rfl
    exact ⟨fun _ => same, fun hw => absurd (plain.symm.trans hw) Bool.false_ne_true⟩
  | blocked same waits => exact ⟨fun _ => same.cond, fun _ => .inr ⟨same.cond, waits⟩⟩
  | kept plain same =>
    exact ⟨fun _ => same.cond, fun hw => absurd (plain.symm.trans hw) Bool.false_ne_true⟩

/-- Settles O40: results, waits and all other effects leave `pc`. -/
theorem pcChangesOnlyByTransfers : Obligations.PcChangesOnlyByTransfers := by
  unfold Obligations.PcChangesOnlyByTransfers
  intro i s t h hi
  cases exec_effect h with
  | result dr _ _ written =>
    obtain ⟨u, v, hu, rfl⟩ := written
    exact (congrArg State.pc (writeResult_eq dr v u)).trans hu.pc
  | transfer v moves _ _ => exact absurd (hi.symm.trans moves) Bool.false_ne_true
  | blocked same _ => exact same.pc
  | kept _ same => exact same.pc

/-! ### The output history (R38) -/

theorem ResultWritten.out {dr : Reg} {s t : State} (h : ResultWritten dr s t) : s.out <+: t.out := by
  obtain ⟨u, v, hu, rfl⟩ := h
  exact hu.out

/-- An instruction only adds to the output history. -/
theorem exec_out {i : Instr} {s t : State} (h : exec i s = .next t) : s.out <+: t.out := by
  cases exec_effect h with
  | result _ _ _ written => exact written.out
  | transfer v _ _ written => rcases written with rfl | ⟨_, rfl⟩ <;> exact List.prefix_rfl
  | blocked same _ => exact same.out
  | kept _ same => exact same.out

theorem fetch_out (s : State) : (fetch s).2.out = s.out := afterRead_out s.pc s

theorem hostStop_out (s : State) : (hostStop s).out = s.out := by
  rcases hostStop_cases s with ⟨_, _, h⟩ | h <;> rw [h]

/-- A turn only adds to the output history. -/
theorem step_out {s t : State} (h : step s = .next t) : s.out <+: t.out := by
  rcases step_next_cases h with ⟨b, rest, _, rfl⟩ | ⟨bs, rest, _, rfl⟩ | ⟨rest, _, rfl⟩ |
    ⟨rest, _, _, _, ⟨_, hexec⟩ | ⟨_, rfl⟩ | ⟨_, rfl⟩ | ⟨k, a, _, rfl⟩⟩
  · exact List.prefix_rfl
  · exact (coreKept_arrive s).out
  · rw [hostStop_out, setPlan_out]
  · exact fetch_out (s.setPlan rest) ▸ exec_out hexec
  · exact (finishGetc_result (s.setPlan rest)).elim (·.out) (·.1.out)
  · exact (finishIn_result (s.setPlan rest)).elim (·.out) (·.1.out)
  · exact (coreKept_runScan (s.setPlan rest) k a).out

/-- Settles O54: the later history begins with the earlier one. -/
theorem outputHistoryOnlyGrows : Obligations.OutputHistoryOnlyGrows := by
  unfold Obligations.OutputHistoryOnlyGrows
  intro s t h
  obtain ⟨bs, hbs⟩ := step_out h
  exact ⟨bs, hbs.symm⟩

/-! ### The host's append (R36, R39) -/

/-- Settles O46: each turn of the host's input as `takeTurn` and `arrive` give it. -/
theorem hostAppendTurn : Obligations.HostAppendTurn := by
  unfold Obligations.HostAppendTurn
  intro s rest
  refine ⟨fun b hp => ?_, fun bs hp => ⟨?_, arrive_during hp⟩, arrive_other⟩
  · simp only [step, takeTurn, hp]
    rfl
  · simp only [step, takeTurn, hp, arrive_during hp]

/-! ### The input queue (R39, R51, R55) -/

/-- From `s` to `t` at most `n` bytes were taken from the head of the input queue, and it grew at its end
by the bytes of the turns used up. -/
def InputTaken (n : Nat) (s t : State) : Prop :=
  ∃ (used : List Turn) (taken : List Byte), s.plan = used ++ t.plan ∧
    s.inq ++ used.flatMap Turn.bytes = taken ++ t.inq ∧ taken.length ≤ n

theorem InputTaken.of_same {s t : State} (hq : t.inq = s.inq) (hp : t.plan = s.plan) :
    InputTaken 0 s t :=
  ⟨[], [], hp.symm, by simp [hq], Nat.le_refl 0⟩

theorem InputTaken.mono {m n : Nat} {s t : State} (h : InputTaken m s t) (hmn : m ≤ n) :
    InputTaken n s t := by
  obtain ⟨used, taken, hp, hq, hl⟩ := h
  exact ⟨used, taken, hp, hq, hl.trans hmn⟩

theorem InputTaken.trans {m n : Nat} {s t u : State} (h₁ : InputTaken m s t) (h₂ : InputTaken n t u) :
    InputTaken (m + n) s u := by
  obtain ⟨used₁, taken₁, hp₁, hq₁, hl₁⟩ := h₁
  obtain ⟨used₂, taken₂, hp₂, hq₂, hl₂⟩ := h₂
  refine ⟨used₁ ++ used₂, taken₁ ++ taken₂, by rw [hp₁, hp₂, List.append_assoc], ?_, ?_⟩
  · calc s.inq ++ (used₁ ++ used₂).flatMap Turn.bytes
      _ = (s.inq ++ used₁.flatMap Turn.bytes) ++ used₂.flatMap Turn.bytes := by simp
      _ = taken₁ ++ (t.inq ++ used₂.flatMap Turn.bytes) := by rw [hq₁, List.append_assoc]
      _ = taken₁ ++ taken₂ ++ u.inq := by rw [hq₂, List.append_assoc]
  · rw [List.length_append]
    exact Nat.add_le_add hl₁ hl₂

/-- A turn used up adds its bytes and takes none. -/
theorem inputTaken_of_turn {s t : State} {turn : Turn} (hp : s.plan = turn :: t.plan)
    (hq : t.inq = s.inq ++ turn.bytes) : InputTaken 0 s t :=
  ⟨[turn], [], hp, by simp [hq], Nat.le_refl 0⟩

theorem inputTaken_setPlan {s : State} {later : List Turn} (h : CoreTurn s later) :
    InputTaken 0 s (s.setPlan later) := by
  rcases h with ⟨hp, rfl⟩ | hp
  · exact .of_same rfl hp.symm
  · exact inputTaken_of_turn hp (List.append_nil _).symm

theorem inputTaken_hostStop (s : State) : InputTaken 0 s (hostStop s) := by
  rcases hostStop_cases s with ⟨_, _, h⟩ | h <;> rw [h] <;> exact .of_same rfl rfl

theorem inputTaken_arrive (s : State) : InputTaken 0 s (arrive s) := by
  rcases arrive_cases s with ⟨bs, rest, hp, h⟩ | h <;> rw [h]
  · exact inputTaken_of_turn (turn := .during bs) hp rfl
  · exact .of_same rfl rfl

/-- A look at the queue takes at most its head, after what has arrived. -/
theorem inputTaken_look {s : State} {b : Byte} {rest : List Byte} (h : (arrive s).inq = b :: rest) :
    InputTaken 1 s ((arrive s).setInq rest) :=
  (inputTaken_arrive s).trans (n := 1) ⟨[], [b], rfl, by simp [h], Nat.le_refl 1⟩

theorem inputTaken_afterRead_of_ne {a : Word} {s : State} (h : a ≠ s.params.kbsrAddr) :
    InputTaken 0 s (afterRead a s) := by
  rw [afterRead_of_ne h]
  exact .of_same rfl rfl

/-- A read through the memory interface takes at most one byte (R51). -/
theorem inputTaken_afterRead (a : Word) (s : State) : InputTaken 1 s (afterRead a s) := by
  rcases afterRead_cases a s with ⟨ha, _⟩ | ⟨_, h⟩
  · exact (inputTaken_afterRead_of_ne ha).mono (Nat.zero_le 1)
  · rcases poll_cases s with ⟨b, rest, hq, hp⟩ | ⟨_, hp⟩ <;> rw [h, hp]
    · exact (inputTaken_look hq).trans (.of_same rfl rfl)
    · exact ((inputTaken_arrive s).trans (.of_same rfl rfl)).mono (Nat.zero_le 1)

theorem inputTaken_writeResult (dr : Reg) (v : Word) (s : State) :
    InputTaken 0 s (writeResult dr v s) := .of_same rfl rfl

theorem inputTaken_loadFrom (dr : Reg) (a : Word) (s : State) : InputTaken 1 s (loadFrom dr a s) :=
  (inputTaken_afterRead a s).trans (inputTaken_writeResult dr _ _)

theorem inputTaken_finishGetc (s : State) : InputTaken 1 s (finishGetc s) := by
  cases hq : (arrive s).inq with
  | nil =>
    rw [finishGetc_blocked hq]
    exact ((inputTaken_arrive s).trans (.of_same rfl rfl)).mono (Nat.zero_le 1)
  | cons c rest =>
    rw [finishGetc_ready hq]
    exact (inputTaken_look hq).trans (.of_same rfl rfl)

theorem inputTaken_finishIn (s : State) : InputTaken 1 s (finishIn s) := by
  cases hq : (arrive s).inq with
  | nil =>
    rw [finishIn_blocked hq]
    exact ((inputTaken_arrive s).trans (.of_same rfl rfl)).mono (Nat.zero_le 1)
  | cons c rest =>
    rw [finishIn_ready hq]
    exact (inputTaken_look hq).trans (.of_same rfl rfl)

theorem inputTaken_runScan (k : StringTrap) (a : Word) (s : State) :
    InputTaken 0 s (runScan k a s) := by
  obtain ⟨bs, h | ⟨next, h⟩⟩ := runScan_cases k a s
  all_goals
    rw [h]
    exact .of_same rfl rfl

/-- A read of the status cell answers 0x8000 or 0x0000, whatever is stored there (R52, R271). -/
theorem cell_afterRead_kbsr {s : State} (hne : s.params.kbdrAddr ≠ s.params.kbsrAddr) :
    (afterRead s.params.kbsrAddr s).cell s.params.kbsrAddr = kbsrReady ∨
    (afterRead s.params.kbsrAddr s).cell s.params.kbsrAddr = 0#16 := by
  rw [afterRead_kbsr]
  rcases poll_cases s with ⟨b, rest, _, hp⟩ | ⟨_, hp⟩ <;> rw [hp]
  · exact .inl (by simp [hne.symm])
  · exact .inr (by simp)

/-- By default the answer of a read of the status cell is no address of the status cell, so a pointer read
there is followed by no second poll: LDI's two reads take at most one byte (R55; log entry 4). -/
theorem inputTaken_pointer_datum {s : State} (hs : s.params = Params.default) (a : Word) :
    InputTaken 1 s (afterRead ((afterRead a s).cell a) (afterRead a s)) := by
  by_cases ha : a = s.params.kbsrAddr
  · subst ha
    have elsewhere : (afterRead s.params.kbsrAddr s).cell s.params.kbsrAddr ≠
        (afterRead s.params.kbsrAddr s).params.kbsrAddr := by
      rw [afterRead_params]
      rcases cell_afterRead_kbsr (s := s) (by rw [hs]; decide) with h | h <;> rw [h, hs] <;> decide
    rw [afterRead_of_ne elsewhere]
    exact inputTaken_afterRead _ s
  · exact (inputTaken_afterRead_of_ne ha).trans (inputTaken_afterRead _ _)

/-- An instruction takes at most two bytes, and by default at most one. -/
theorem exec_inputTaken {i : Instr} {s t : State} (h : exec i s = .next t) :
    InputTaken 2 s t ∧ (s.params = Params.default → InputTaken 1 s t) := by
  have one : InputTaken 1 s t → InputTaken 2 s t ∧ (s.params = Params.default → InputTaken 1 s t) :=
    fun ht => ⟨ht.mono (Nat.le_succ 1), fun _ => ht⟩
  have untouched (hq : t.inq = s.inq) (hp : t.plan = s.plan) :=
    one ((InputTaken.of_same hq hp).mono (Nat.zero_le 1))
  cases i <;> cases h
  case addReg | addImm | andReg | andImm | not | lea => exact untouched rfl rfl
  case jmp | jsr | jsrr | st | str | trapOut | trapHalt => exact untouched rfl rfl
  case trapUnknown | reservedA | reservedB => exact untouched rfl rfl
  case br =>
    refine untouched ?_ ?_
    all_goals split <;> rfl
  case ld | ldr => exact one (inputTaken_loadFrom _ _ s)
  case ldi =>
    exact ⟨(inputTaken_afterRead _ s).trans (inputTaken_loadFrom _ _ _),
      fun hs => (inputTaken_pointer_datum hs _).trans (inputTaken_writeResult _ _ _)⟩
  case sti => exact one ((inputTaken_afterRead _ s).trans (.of_same rfl rfl))
  case trapGetc => exact one (inputTaken_finishGetc s)
  case trapIn =>
    exact one ((InputTaken.of_same rfl rfl).trans (inputTaken_finishIn (s.outWrite s.params.inPrompt)))
  case trapPuts | trapPutsp => exact one ((inputTaken_runScan _ _ s).mono (Nat.zero_le 1))

/-- What a fetch of the status cell answers decodes by default to an instruction that looks at no queue: a
reserved opcode, or BR with nzp 0 (R271; log entry 1). -/
theorem exec_statusWord_inputTaken {s t : State} {w : Word} (hw : w = kbsrReady ∨ w = 0#16)
    (h : exec (decode Params.default w) s = .next t) : InputTaken 0 s t := by
  rcases hw with rfl | rfl
  · rw [show decode Params.default kbsrReady = .reservedA 0#12 by decide] at h
    cases h
    exact .of_same rfl rfl
  · rw [show decode Params.default 0#16 = .br 0#3 0#9 by decide] at h
    cases h
    split <;> exact .of_same rfl rfl

theorem inputTaken_fetch (s : State) : InputTaken 1 s (fetch s).2 :=
  (inputTaken_afterRead s.pc s).trans (.of_same rfl rfl)

/-- A step that runs an instruction takes at most three bytes, and by default at most one. -/
theorem fetch_exec_inputTaken {s t : State}
    (h : exec (decode s.params (fetch s).1) (fetch s).2 = .next t) :
    InputTaken 3 s t ∧ (s.params = Params.default → InputTaken 1 s t) := by
  refine ⟨(inputTaken_fetch s).trans (exec_inputTaken h).1, fun hs => ?_⟩
  by_cases hpc : s.pc = s.params.kbsrAddr
  · have word : (fetch s).1 = kbsrReady ∨ (fetch s).1 = 0#16 := by
      rw [fetch_eq, hpc]
      exact cell_afterRead_kbsr (by rw [hs]; decide)
    rw [hs] at h
    exact (inputTaken_fetch s).trans (exec_statusWord_inputTaken word h)
  · have fetched : InputTaken 0 s (fetch s).2 :=
      (inputTaken_afterRead_of_ne hpc).trans (.of_same rfl rfl)
    exact fetched.trans ((exec_inputTaken h).2 ((afterRead_params s.pc s).trans hs))

/-- A turn takes at most three bytes, and by default at most one. -/
theorem step_inputTaken {s t : State} (h : step s = .next t) :
    InputTaken 3 s t ∧ (s.params = Params.default → InputTaken 1 s t) := by
  have one : InputTaken 1 s t → InputTaken 3 s t ∧ (s.params = Params.default → InputTaken 1 s t) :=
    fun ht => ⟨ht.mono (by decide), fun _ => ht⟩
  rcases step_next_cases h with ⟨b, rest, hp, rfl⟩ | ⟨bs, rest, _, rfl⟩ | ⟨rest, hp, rfl⟩ |
    ⟨rest, hturn, _, _, hcore⟩
  · exact one ((inputTaken_of_turn hp rfl).mono (Nat.zero_le 1))
  · exact one ((inputTaken_arrive s).mono (Nat.zero_le 1))
  · have planned : InputTaken 0 s (s.setPlan rest) := inputTaken_of_turn hp (List.append_nil _).symm
    exact one ((planned.trans (inputTaken_hostStop _)).mono (Nat.zero_le 1))
  have planned := inputTaken_setPlan hturn
  rcases hcore with ⟨_, hexec⟩ | ⟨_, rfl⟩ | ⟨_, rfl⟩ | ⟨k, a, _, rfl⟩
  · obtain ⟨three, byDefault⟩ := fetch_exec_inputTaken (s := s.setPlan rest) hexec
    exact ⟨planned.trans three, fun hs => planned.trans (byDefault hs)⟩
  · exact one (planned.trans (inputTaken_finishGetc _))
  · exact one (planned.trans (inputTaken_finishIn _))
  · exact one ((planned.trans (inputTaken_runScan k a _)).mono (Nat.zero_le 1))

/-- Settles O55: by the looks of a turn, at most three, of which by default at most one takes a byte. -/
theorem inputTakenOneByteATime : Obligations.InputTakenOneByteATime := by
  unfold Obligations.InputTakenOneByteATime
  intro s t h
  obtain ⟨three, byDefault⟩ := step_inputTaken h
  by_cases hs : s.params = Params.default
  · obtain ⟨used, taken, hp, hq, hl⟩ := byDefault hs
    exact ⟨used, taken, hp, hq, hl.trans (by decide), fun _ => hl⟩
  · obtain ⟨used, taken, hp, hq, hl⟩ := three
    exact ⟨used, taken, hp, hq, hl, fun hd => absurd hd hs⟩

end Sys2Proof.Machine

/-! PROOFS, family 20_memory: the effective addresses (O8), the read and the write through the memory interface
(O9, O10), the cells an instruction (O41) and a turn (O56) can change, and the fetch of a word just stored
(O45). -/

namespace Sys2Proof.Machine

/-! ### Which cells an instruction and a turn can change (R51, R53, R54, R62) -/

/-- A read through the memory interface leaves a cell that is no device cell, and every cell when it does not
read the status cell. -/
theorem cell_afterRead_kept {b c : Word} {s : State}
    (h : b = s.params.kbsrAddr → c ≠ s.params.kbsrAddr ∧ c ≠ s.params.kbdrAddr) :
    (afterRead b s).cell c = s.cell c := by
  by_cases hb : b = s.params.kbsrAddr
  · obtain ⟨hstatus, hdata⟩ := h hb
    exact afterRead_cell_of_ne b s hstatus hdata
  · rw [afterRead_of_ne hb]

theorem finishGetc_mem (s : State) : (finishGetc s).mem = s.mem := by
  cases hq : (arrive s).inq with
  | nil => rw [finishGetc_blocked hq, setPhase_mem, arrive_mem]
  | cons c rest => simp [finishGetc_ready hq, writeResult_eq]

theorem finishIn_mem (s : State) : (finishIn s).mem = s.mem := by
  cases hq : (arrive s).inq with
  | nil => rw [finishIn_blocked hq, setPhase_mem, arrive_mem]
  | cons c rest => simp [finishIn_ready hq, writeResult_eq]

theorem runScan_mem (k : StringTrap) (a : Word) (s : State) : (runScan k a s).mem = s.mem := by
  obtain ⟨bs, h | ⟨next, h⟩⟩ := runScan_cases k a s <;> rw [h] <;> rfl

theorem hostStop_mem (s : State) : (hostStop s).mem = s.mem := by
  rcases hostStop_cases s with ⟨_, _, h⟩ | h <;> rw [h]

/-- An instruction leaves a cell it does not store to, unless it polls and the cell is a device cell. -/
theorem exec_cell_kept {i : Instr} {s t : State} {c : Word} (h : exec i s = .next t)
    (hstore : i.storeAddr s ≠ some c)
    (hpoll : s.params.kbsrAddr ∈ i.readAddrs s → c ≠ s.params.kbsrAddr ∧ c ≠ s.params.kbdrAddr) :
    t.cell c = s.cell c := by
  have read : ∀ b ∈ i.readAddrs s,
      b = s.params.kbsrAddr → c ≠ s.params.kbsrAddr ∧ c ≠ s.params.kbdrAddr :=
    fun b hb hk => hpoll (hk ▸ hb)
  cases i <;> cases h
  case addReg | addImm | andReg | andImm | not | lea | jmp | jsr | jsrr => rfl
  case trapOut | trapHalt | trapUnknown | reservedA | reservedB => rfl
  case br => split <;> rfl
  case ld | ldr => exact cell_afterRead_kept (read _ (.head _))
  case ldi dr off9 =>
    have pointer := cell_afterRead_kept (read _ (.head _))
    have datum := cell_afterRead_kept (b := (memRead (pcRelative off9 s) s).1) (c := c)
      (s := afterRead (pcRelative off9 s) s)
      (by rw [afterRead_params]; exact read _ (.tail _ (.head _)))
    exact datum.trans pointer
  case st | str =>
    exact (cell_setCell ..).trans (if_neg fun hc => hstore (congrArg some hc.symm))
  case sti =>
    exact ((cell_setCell ..).trans (if_neg fun hc => hstore (congrArg some hc.symm))).trans
      (cell_afterRead_kept (read _ (.head _)))
  case trapGetc => exact cell_congr (finishGetc_mem s) c
  case trapIn => exact cell_congr (finishIn_mem (s.outWrite s.params.inPrompt)) c
  case trapPuts | trapPutsp => exact cell_congr (runScan_mem _ _ s) c

/-- Settles O41: the frame of an instruction's cells. -/
theorem cellsChangeOnlyByStoreOrPoll : Obligations.CellsChangeOnlyByStoreOrPoll := by
  unfold Obligations.CellsChangeOnlyByStoreOrPoll
  exact fun _ _ _ h _ hstore hpoll => exec_cell_kept h hstore hpoll

/-- A turn that changes a cell runs an instruction from a state ready for a step: the host's turns, a blocked
trap and a scan leave memory. -/
theorem step_changes_cell {s t : State} {c : Word} (h : step s = .next t) (hc : t.cell c ≠ s.cell c) :
    s.Ready ∧ ∃ later, CoreTurn s later ∧
      exec (decode s.params (fetch (s.setPlan later)).1) (fetch (s.setPlan later)).2 = .next t := by
  have kept (hm : t.mem = s.mem) : False := hc (cell_congr hm c)
  rcases step_next_cases h with ⟨b, rest, _, rfl⟩ | ⟨bs, rest, _, rfl⟩ | ⟨rest, _, rfl⟩ |
    ⟨later, hturn, hrun, hfault, ⟨hphase, hexec⟩ | ⟨_, rfl⟩ | ⟨_, rfl⟩ | ⟨k, a, _, rfl⟩⟩
  · exact (kept rfl).elim
  · exact (kept (arrive_mem s)).elim
  · exact (kept (hostStop_mem _)).elim
  · exact ⟨⟨hrun, hfault, hphase⟩, later, hturn, hexec⟩
  · exact (kept (finishGetc_mem _)).elim
  · exact (kept (finishIn_mem _)).elim
  · exact (kept (runScan_mem k a _)).elim

/-- Settles O56: a cell that neither the instruction stores to nor a poll of the turn can reach is left by the
fetch and by the instruction. -/
theorem memoryChangesOnlyByStoreOrPoll : Obligations.MemoryChangesOnlyByStoreOrPoll := by
  unfold Obligations.MemoryChangesOnlyByStoreOrPoll
  intro s t a h ha
  obtain ⟨ready, later, hturn, hexec⟩ := step_changes_cell h ha
  refine ⟨ready, later, _, _, hturn, rfl, rfl, ?_⟩
  by_contra hno
  obtain ⟨hstore, hdevice⟩ := not_or.mp hno
  have params : (fetch (s.setPlan later)).2.params = s.params := afterRead_params s.pc (s.setPlan later)
  have apart (hpoll : s.pc = s.params.kbsrAddr ∨ s.params.kbsrAddr ∈
      (decode s.params (fetch (s.setPlan later)).1).readAddrs (fetch (s.setPlan later)).2) :
      a ≠ s.params.kbsrAddr ∧ a ≠ s.params.kbdrAddr :=
    not_or.mp fun hd => hdevice ⟨hd, hpoll⟩
  have fetched : (fetch (s.setPlan later)).2.cell a = s.cell a :=
    cell_afterRead_kept (b := s.pc) (s := s.setPlan later) fun hpc => apart (.inl hpc)
  have executed : t.cell a = (fetch (s.setPlan later)).2.cell a :=
    exec_cell_kept hexec hstore (by rw [params]; exact fun hread => apart (.inr hread))
  exact ha (executed.trans fetched)

/-! ### Effective addresses (R56) -/

/-- An address is its base plus the signed value of the offset, modulo 2^16. -/
theorem toNat_add_sext {n : Nat} (base : Word) (off : BitVec n) (hn : n ≤ 16) :
    ((base + sext off).toNat : Int) = ((base.toNat : Int) + off.toInt) % 65536 := by
  have signed : off.toInt = ((sext off).toNat : Int).bmod 65536 := by
    rw [sext_eq_signExtend off hn, ← BitVec.toInt_signExtend_of_le hn]
    exact BitVec.toInt_eq_toNat_bmod _
  calc ((base + sext off).toNat : Int)
    _ = ((base.toNat : Int) + (sext off).toNat) % 65536 := by simp
    _ = ((base.toNat : Int) + off.toInt) % 65536 := by
      rw [signed]
      exact Int.ModEq.add_left _ (Int.bmod_emod (m := 65536)).symm

/-- Settles O8: the addressing modes are one sum, with offsets of 9, 11 and 6 bits. -/
theorem effectiveAddressesWrap : Obligations.EffectiveAddressesWrap := by
  unfold Obligations.EffectiveAddressesWrap
  exact fun s => ⟨fun off => toNat_add_sext s.pc off (by decide),
    fun off => toNat_add_sext s.pc off (by decide),
    fun base off => toNat_add_sext (s.reg base) off (by decide)⟩

/-! ### The read and the write through the memory interface (R51 to R53) -/

/-- A read of an ordinary cell answers the cell and changes nothing (R51). -/
theorem memRead_of_ne {a : Word} {s : State} (h : a ≠ s.params.kbsrAddr) :
    memRead a s = (s.cell a, s) := by
  rw [memRead, afterRead_of_ne h]

/-- A read of the status cell answers what the poll leaves there (R51). -/
theorem memRead_kbsr {a : Word} {s : State} (h : a = s.params.kbsrAddr) :
    memRead a s = ((poll s).cell s.params.kbsrAddr, poll s) := by
  rw [h, memRead, afterRead_kbsr]

section
variable {s : State} {b : Byte} {rest : List Byte}

theorem poll_inq_ready (h : (arrive s).inq = b :: rest) : (poll s).inq = rest := by
  rw [poll_ready h]; rfl

theorem poll_inq_empty (h : (arrive s).inq = []) : (poll s).inq = [] := by
  rw [poll_empty h]; exact h

/-- A poll with a byte there puts the byte into the data cell. -/
theorem poll_kbdr_ready (h : (arrive s).inq = b :: rest) :
    (poll s).cell s.params.kbdrAddr = b.setWidth 16 := by
  simp [poll_ready h, zext8]

/-- A poll with no byte there leaves the data cell. -/
theorem poll_kbdr_empty (hne : s.params.kbdrAddr ≠ s.params.kbsrAddr) (h : (arrive s).inq = []) :
    (poll s).cell s.params.kbdrAddr = s.cell s.params.kbdrAddr := by
  simp [poll_empty h, hne]

/-- A poll assigns the whole status cell, by the queue alone (R52). -/
theorem poll_kbsr (hne : s.params.kbdrAddr ≠ s.params.kbsrAddr) :
    (poll s).cell s.params.kbsrAddr = if (arrive s).inq = [] then 0#16 else kbsrReady := by
  rcases poll_cases s with ⟨b, rest, hq, hp⟩ | ⟨hq, hp⟩
  · simp [hp, hq, hne.symm]
  · simp [hp, hq]

end

/-- Beyond what has arrived a poll changes only the device cells and the queue. -/
theorem onlyDevice_poll (s : State) : OnlyDevice (arrive s) (poll s) := by
  have cells : SameCellsBut [s.params.kbsrAddr, s.params.kbdrAddr] (arrive s) (poll s) := fun c hc => by
    obtain ⟨hstatus, hdata⟩ : c ≠ s.params.kbsrAddr ∧ c ≠ s.params.kbdrAddr := by simpa using hc
    rw [cell_arrive, ← afterRead_kbsr, afterRead_cell_of_ne _ _ hstatus hdata]
  rw [← arrive_params s] at cells
  rcases poll_cases s with ⟨_, _, _, hp⟩ | ⟨_, hp⟩ <;> rw [hp] at cells ⊢
  all_goals exact ⟨fun _ _ => rfl, rfl, rfl, cells, rfl, rfl, ⟨rfl, rfl, rfl, rfl⟩, rfl⟩

/-- Settles O9: a read of the status cell is a poll, a read of any other cell is none. -/
theorem memReadPollsOnlyStatusCell : Obligations.MemReadPollsOnlyStatusCell := by
  unfold Obligations.MemReadPollsOnlyStatusCell
  intro a s ⟨_, _, _, hne, _⟩
  have status := poll_kbsr hne
  refine ⟨memRead_of_ne, fun ha b rest hq => ?_, fun ha hq => ?_⟩
  · rw [if_neg (by simp [hq])] at status
    exact ⟨poll s, by rw [memRead_kbsr ha, status]; rfl, status, poll_kbdr_ready hq, poll_inq_ready hq,
      onlyDevice_poll s⟩
  · rw [if_pos hq] at status
    exact ⟨poll s, by rw [memRead_kbsr ha, status], status, poll_kbdr_empty hne hq, poll_inq_empty hq,
      onlyDevice_poll s⟩

/-- A store changes the cell it names and nothing else, at any address (R53). -/
theorem onlyCell_memWrite (a v : Word) (s : State) : OnlyCell a v s (memWrite a v s) := by
  have other : SameCellsBut [a] s (memWrite a v s) := fun c hc =>
    (cell_setCell s a c v).trans (if_neg fun h => hc (by simp [h]))
  exact ⟨(cell_setCell s a a v).trans (if_pos rfl), other, fun _ _ => rfl, rfl, rfl, ⟨rfl, rfl, rfl⟩,
    ⟨rfl, rfl, rfl, rfl⟩, rfl⟩

/-- A store leaves the bytes the next look at the queue sees. -/
theorem arrive_memWrite_inq (a v : Word) (s : State) : (arrive (memWrite a v s)).inq = (arrive s).inq := by
  rw [memWrite, arrive_setCell, setCell_inq]

/-- Settles O10: the store by its frame; the later reads because a read of the data cell is no poll, and a poll
sees the queue and not what is stored in the status cell. -/
theorem memWriteIsAPlainCellStore : Obligations.MemWriteIsAPlainCellStore := by
  unfold Obligations.MemWriteIsAPlainCellStore
  intro a v s ⟨_, _, _, hne, _⟩
  have stored : (memWrite s.params.kbdrAddr v s).cell s.params.kbdrAddr = v :=
    (onlyCell_memWrite s.params.kbdrAddr v s).1
  have polls (c : Word) : memRead s.params.kbsrAddr (memWrite c v s) =
      ((poll (memWrite c v s)).cell s.params.kbsrAddr, poll (memWrite c v s)) :=
    memRead_kbsr (s := memWrite c v s) rfl
  have statusRead : (memRead s.params.kbsrAddr (memWrite s.params.kbsrAddr v s)).1 =
      (memRead s.params.kbsrAddr s).1 := by
    rw [polls, memRead_kbsr rfl, poll_kbsr hne, ← arrive_memWrite_inq s.params.kbsrAddr v s]
    exact poll_kbsr hne
  refine ⟨onlyCell_memWrite a v s, ?_, fun hq => ?_, fun b rest hq => ?_, statusRead, statusRead⟩
  · rw [memRead_of_ne (s := memWrite s.params.kbdrAddr v s) hne, stored]
  all_goals rw [← arrive_memWrite_inq s.params.kbdrAddr v s] at hq
  · rw [polls]
    exact (poll_kbdr_empty (s := memWrite s.params.kbdrAddr v s) hne hq).trans stored
  · rw [polls]
    exact poll_kbdr_ready hq

/-! ### The fetch of a word just stored (R62, R65) -/

/-- A store instruction leaves its register's value in the cell it stores to, and neither moves `pc` nor ends
the run. -/
theorem exec_store {i : Instr} {r : Reg} {a : Word} {s t : State} (hr : i.storeReg = some r)
    (ha : i.storeAddr s = some a) (h : exec i s = .next t) :
    t.cell a = s.reg r ∧ t.pc = s.pc ∧ SameControl s t := by
  cases i <;> cases hr
  all_goals
    cases ha
    cases h
  case st | str => exact ⟨(cell_setCell ..).trans (if_pos rfl), rfl, ⟨rfl, rfl, rfl, rfl⟩, rfl⟩
  case sti =>
    exact ⟨((cell_setCell ..).trans (if_pos rfl)).trans (afterRead_reg _ s r), afterRead_pc _ s,
      ⟨afterRead_params _ s, afterRead_running _ s, afterRead_fault _ s, afterRead_stopped _ s⟩,
      afterRead_phase _ s⟩

/-- Settles O45: after the store the core is ready, and its turn runs what the cell at `pc` decodes to. -/
theorem storedWordIsFetchedNext : Obligations.StoredWordIsFetchedNext := by
  unfold Obligations.StoredWordIsFetchedNext
  intro i r s t later ⟨hrun, hfault, hphase⟩ hpc hr ha h hturn
  obtain ⟨word, pcKept, ⟨params, running, fault, _⟩, phase⟩ := exec_store hr ha h
  have ready : t.Ready := ⟨running.trans hrun, fault.trans hfault, phase.trans hphase⟩
  have ordinary : t.pc ≠ t.params.kbsrAddr := by rwa [pcKept, params]
  obtain ⟨_, runs, _⟩ := stepRunsDecodedInstruction t _ later ready hturn
  rw [runs ordinary rfl, pcKept, params, word]

end Sys2Proof.Machine

/-! PROOFS, family 30_encoding: what the decoder keeps of a word (O2, O3), its answers are well formed (O4), the
words of the spec's rules (O5), the illegal encodings (O6), and that they alone are fatal (O42). -/

namespace Sys2Proof

/-! ### Unknown trap vectors (R88, R89, R204) -/

/-- TRAP's fallback row is well formed for the vectors outside R89's list. -/
theorem wellFormed_trapUnknown (v : BitVec 8) : (Instr.trapUnknown v).wellFormed = true ↔
    v.toNat ∉ [0x20, 0x21, 0x22, 0x23, 0x24, 0x25] := by
  simp [Instr.wellFormed, Config.definedVectors, Config.vecGetc, Config.vecOut, Config.vecPuts,
    Config.vecIn, Config.vecPutsp, Config.vecHalt, ← BitVec.toNat_inj]

theorem wellFormed_decodeTrap (v : BitVec 8) : (decodeTrap v).wellFormed = true := by
  unfold decodeTrap
  split_ifs
  case neg => simp [Instr.wellFormed, Config.definedVectors, *]
  all_goals rfl

/-- An unknown vector is answered by TRAP's second level only. -/
theorem decodeTrap_of_decode_trapUnknown {p : Params} {w : Word} {v : BitVec 8}
    (h : decode p w = .trapUnknown v) : decodeTrap (fieldVec w) = .trapUnknown v := by
  simp only [decode, ite_eq_iff, reduceCtorEq, and_false, or_self, false_or] at h
  tauto

/-- Settles O4: the one row with a condition is TRAP's fallback, and only the second level of decoding answers
it. -/
theorem decodedWordsAreWellFormed : Obligations.DecodedWordsAreWellFormed := by
  unfold Obligations.DecodedWordsAreWellFormed
  intro p w
  cases hi : decode p w
  case trapUnknown v => rw [← decodeTrap_of_decode_trapUnknown hi, wellFormed_decodeTrap]
  all_goals rfl

/-! ### What the decoder keeps of a word (R83, R85, R87) -/

/-- The register a field of a word names has the field's content as its index. -/
theorem fieldAt_eq_toBits_regAt (lo : Nat) (w : Word) : fieldAt lo 3 w = (regAt lo w).toBits :=
  (Reg.toBits_ofBits _).symm

/-- A word holds the fields of the instruction it decodes to: the converse of `decode_eq_of_fields`. -/
theorem fields_decode {p : Params} (hp : p.opcodes.Nodup) (w : Word) :
    ∀ f ∈ (decode p w).fields p, fieldAt f.lo f.width w = f.bits := by
  have clear : ∀ {b : BitVec 1}, b ≠ 1#1 → b = 0#1 := by decide
  have reg (lo : Nat) := fieldAt_eq_toBits_regAt lo w
  have row := fieldOpcode_mem hp w
  simp only [Params.opcodes, List.mem_cons, List.not_mem_nil, or_false] at row
  rw [← List.forall_iff_forall_mem]
  rcases row with br | add | ld | st | jsr | and | ldr | str | rsvA | not | ldi | sti | jmp | rsvB | lea |
    trap
  · rw [decode_br br]; exact ⟨br, rfl, rfl⟩
  · by_cases mode : fieldMode w = 1#1
    · rw [decode_addImm hp add mode]; exact ⟨add, reg _, reg _, mode, rfl⟩
    · rw [decode_addReg hp add mode]; exact ⟨add, reg _, reg _, clear mode, reg _⟩
  · rw [decode_ld hp ld]; exact ⟨ld, reg _, rfl⟩
  · rw [decode_st hp st]; exact ⟨st, reg _, rfl⟩
  · by_cases bit11 : fieldJsr w = 1#1
    · rw [decode_jsr hp jsr bit11]; exact ⟨jsr, bit11, rfl⟩
    · rw [decode_jsrr hp jsr bit11]; exact ⟨jsr, clear bit11, reg _⟩
  · by_cases mode : fieldMode w = 1#1
    · rw [decode_andImm hp and mode]; exact ⟨and, reg _, reg _, mode, rfl⟩
    · rw [decode_andReg hp and mode]; exact ⟨and, reg _, reg _, clear mode, reg _⟩
  · rw [decode_ldr hp ldr]; exact ⟨ldr, reg _, reg _, rfl⟩
  · rw [decode_str hp str]; exact ⟨str, reg _, reg _, rfl⟩
  · rw [decode_rsvA hp rsvA]; exact ⟨rsvA, rfl⟩
  · rw [decode_not hp not]; exact ⟨not, reg _, reg _⟩
  · rw [decode_ldi hp ldi]; exact ⟨ldi, reg _, rfl⟩
  · rw [decode_sti hp sti]; exact ⟨sti, reg _, rfl⟩
  · rw [decode_jmp hp jmp]; exact ⟨jmp, reg _⟩
  · rw [decode_rsvB hp rsvB]; exact ⟨rsvB, rfl⟩
  · rw [decode_lea hp lea]; exact ⟨lea, reg _, rfl⟩
  · rw [decode_trap hp trap, fields_decodeTrap]; exact ⟨trap, rfl⟩

/-- Settles O2: the encoder packs the fields the word holds. -/
theorem encodeDecodeKeepsReadBits : Obligations.EncodeDecodeKeepsReadBits := by
  unfold Obligations.EncodeDecodeKeepsReadBits
  intro p w ⟨hnodup, _⟩
  exact pack_fieldAt fun f hf => (fields_decode hnodup w f hf).symm

/-- Settles O3: the words agree on the row's fields, and a word with those fields decodes to that
instruction. -/
theorem ignoredBitsHaveNoEffect : Obligations.IgnoredBitsHaveNoEffect := by
  unfold Obligations.IgnoredBitsHaveNoEffect
  intro p w v ⟨hnodup, _⟩ agree
  refine decode_eq_of_fields hnodup (decodedWordsAreWellFormed p w) fun f hf => ?_
  rw [fieldAt_congr agree hf, fields_decode hnodup w f hf]

/-- Settles O5: each word by running the decoder. -/
theorem specWordsDecode : Obligations.SpecWordsDecode := by
  unfold Obligations.SpecWordsDecode
  decide

/-! ### The illegal encodings (R89) -/

/-- Settles O6: the word holds the opcode and the vector of the row it decodes to, and unknown vectors are the
well-formed ones of TRAP's fallback row. -/
theorem illegalEncodingsAreTwoSets : Obligations.IllegalEncodingsAreTwoSets := by
  unfold Obligations.IllegalEncodingsAreTwoSets
  intro p w ⟨hnodup, _⟩
  constructor
  · intro illegal
    have held := List.forall_iff_forall_mem.mpr (fields_decode hnodup w)
    have wf := decodedWordsAreWellFormed p w
    cases hi : decode p w with rw [hi] at illegal held wf
    | reservedA low => exact .inl held.1
    | reservedB low => exact .inr (.inl held.1)
    | trapUnknown v =>
      obtain ⟨trap, vec⟩ : fieldOpcode w = p.opcTrap ∧ fieldVec w = v := held
      exact .inr (.inr ⟨trap, vec ▸ (wellFormed_trapUnknown v).mp wf⟩)
    | _ => cases illegal
  · rintro (rsvA | rsvB | ⟨trap, vec⟩)
    · rw [decode_rsvA hnodup rsvA]; rfl
    · rw [decode_rsvB hnodup rsvB]; rfl
    · rw [decode_trap hnodup trap, decodeTrap_of_wellFormed ((wellFormed_trapUnknown _).mpr vec)]; rfl

end Sys2Proof

namespace Sys2Proof.Machine

/-! ### Fatal conditions (R89, R231) -/

/-- Running an illegal encoding raises a fatal condition and does nothing else (R204, R220, R221). -/
theorem exec_of_illegal {i : Instr} {s t : State} (hi : i.illegal = true) (h : exec i s = .next t) :
    ∃ f, t = raiseFatal f s := by
  cases i <;> cases hi
  all_goals
    cases h
    exact ⟨_, rfl⟩

/-- Settles O42: a legal instruction lets the run go on, or ends it as HALT does, and neither writes the fault
record. -/
theorem onlyIllegalEncodingsAreFatal : Obligations.OnlyIllegalEncodingsAreFatal := by
  unfold Obligations.OnlyIllegalEncodingsAreFatal
  intro i s t h
  refine ⟨fun legal => ?_, fun illegal => ?_⟩
  · rcases exec_next_cases h with ⟨⟨_, _, fault, _⟩, _, _⟩ | ⟨_, rfl⟩ | ⟨illegal, _⟩
    · exact fault
    · rfl
    · exact absurd (legal.symm.trans illegal) Bool.false_ne_true
  · obtain ⟨f, rfl⟩ := exec_of_illegal illegal h
    exact ⟨Option.some_ne_none f, rfl⟩

end Sys2Proof.Machine

/-! PROOFS, family 40_alu: both forms of ADD (O12) and AND (O13), and NOT (O14). Each is one result written to DR
(`onlyResult_writeResult`); what is left is the value, which `exec` spells in its own terms. -/

namespace Sys2Proof.Machine

/-! ### A written result (R27, R28) -/

/-- Writing a result changes its register and `cond` and nothing else. -/
theorem onlyResult_writeResult (dr : Reg) (v : Word) (s : State) :
    OnlyResult dr v s (writeResult dr v s) := by
  rw [writeResult_eq]
  refine ⟨by simp, rfl, fun r hr => ?_, rfl, fun _ _ => rfl, ⟨rfl, rfl, rfl⟩, ⟨rfl, rfl, rfl, rfl⟩, rfl⟩
  rw [reg_setCond, reg_setReg, if_neg (List.mem_singleton.not.mp hr)]

/-- An instruction that answers with a result written to `dr` answers a next state that differs in it alone. -/
theorem onlyResult_of_exec {i : Instr} {dr : Reg} {v : Word} {s : State}
    (h : exec i s = .next (writeResult dr v s)) : ∃ t, exec i s = .next t ∧ OnlyResult dr v s t :=
  ⟨_, h, onlyResult_writeResult dr v s⟩

/-! ### ADD, AND, NOT (R110 to R118) -/

section
variable (dr sr : Reg) (imm5 : BitVec 5) (s : State)

theorem exec_addImm : exec (.addImm dr sr imm5) s =
    .next (writeResult dr (s.reg sr + imm5.signExtend 16) s) := by
  rw [← sext_eq_signExtend imm5 (by decide)]; rfl

theorem exec_andImm : exec (.andImm dr sr imm5) s =
    .next (writeResult dr (s.reg sr &&& imm5.signExtend 16) s) := by
  rw [← sext_eq_signExtend imm5 (by decide)]; rfl

/-- The complement bit by bit, which `exec` takes, is the subtraction from 0xFFFF that R118 writes. -/
theorem exec_not : exec (.not dr sr) s = .next (writeResult dr (0xFFFF#16 - s.reg sr) s) := by
  have complement : 0xFFFF#16 - s.reg sr = ~~~ s.reg sr := BitVec.allOnes_sub_eq_not (s.reg sr)
  rw [complement]; rfl

end

/-- Settles O12: both forms write one result, the immediate form with its operand sign-extended. -/
theorem addBothForms : Obligations.AddBothForms := by
  unfold Obligations.AddBothForms
  exact ⟨fun _ _ _ _ => onlyResult_of_exec rfl,
    fun dr sr1 imm5 s => onlyResult_of_exec (exec_addImm dr sr1 imm5 s)⟩

/-- Settles O13: both forms write one result, the immediate form with its operand sign-extended. -/
theorem andBothForms : Obligations.AndBothForms := by
  unfold Obligations.AndBothForms
  exact ⟨fun _ _ _ _ => onlyResult_of_exec rfl,
    fun dr sr1 imm5 s => onlyResult_of_exec (exec_andImm dr sr1 imm5 s)⟩

/-- Settles O14: NOT writes one result, the subtraction from 0xFFFF. -/
theorem notComplements : Obligations.NotComplements := by
  unfold Obligations.NotComplements
  exact fun dr sr s => onlyResult_of_exec (exec_not dr sr s)

end Sys2Proof.Machine

/-! PROOFS, family 41_control: BR (O15), JMP (O16), JSR (O17) and JSRR (O18). Each writes `pc`, JSR and JSRR after
their link to R7; an equation of `exec` says which value goes there, and two frames say that nothing else
changes. -/

namespace Sys2Proof.Machine

/-! ### The frames of a transfer (R28, R130 to R136) -/

/-- Writing `pc` changes `pc` and nothing else. -/
theorem onlyPc_setPc (v : Word) (s : State) : OnlyPc v s (s.setPc v) :=
  ⟨rfl, fun _ _ => rfl, rfl, fun _ _ => rfl, ⟨rfl, rfl, rfl⟩, ⟨rfl, rfl, rfl, rfl⟩, rfl⟩

/-- Only R7 and `pc` changed: the address of the next instruction went to R7, `v` to `pc` (R134, R136). -/
abbrev LinkedTo (v : Word) (s t : State) : Prop :=
  t.reg .r7 = s.pc ∧ t.pc = v ∧ SameRegsBut [.r7] s t ∧ t.cond = s.cond ∧ SameCellsBut [] s t ∧
  SameHost s t ∧ SameControl s t

/-- Writing the link and then `pc` changes those two and nothing else, the flags included (D6). -/
theorem linkedTo_setPc (v : Word) (s : State) : LinkedTo v s ((s.setReg .r7 s.pc).setPc v) := by
  refine ⟨by simp, rfl, fun r hr => ?_, rfl, fun _ _ => rfl, ⟨rfl, rfl, rfl⟩, ⟨rfl, rfl, rfl, rfl⟩, rfl⟩
  rw [reg_setPc, reg_setReg, if_neg (List.mem_singleton.not.mp hr)]

/-! ### The test of BR (R130) -/

/-- Two 3-bit fields have a common bit exactly when they share bit 2, bit 1 or bit 0. -/
theorem and_ne_zero_bits (a b : BitVec 3) : ((a &&& b) != 0#3) =
    ((a.getLsbD 2 && b.getLsbD 2) || (a.getLsbD 1 && b.getLsbD 1) || (a.getLsbD 0 && b.getLsbD 0)) := by
  revert a b
  decide

/-- BR's test bit by bit: n selects bit 2 of `cond`, z bit 1, p bit 0. -/
theorem branchTaken_eq_bits (nzp : BitVec 3) (c : Word) : branchTaken nzp c =
    ((nzp.getLsbD 2 && c.getLsbD 2) || (nzp.getLsbD 1 && c.getLsbD 1) ||
      (nzp.getLsbD 0 && c.getLsbD 0)) := by
  simp [branchTaken, and_ne_zero_bits]

/-- With no flag set no BR is taken. -/
theorem branchTaken_zero (nzp : BitVec 3) : branchTaken nzp 0#16 = false := by
  simp [branchTaken_eq_bits]

/-! With the default flags each bit of nzp selects one of them (R26, log entry 3). -/

theorem branchTaken_flNeg (nzp : BitVec 3) :
    branchTaken nzp Params.default.flNeg = nzp.getLsbD 2 := by
  simp [branchTaken_eq_bits, Params.default]

theorem branchTaken_flZro (nzp : BitVec 3) :
    branchTaken nzp Params.default.flZro = nzp.getLsbD 1 := by
  simp [branchTaken_eq_bits, Params.default]

theorem branchTaken_flPos (nzp : BitVec 3) :
    branchTaken nzp Params.default.flPos = nzp.getLsbD 0 := by
  simp [branchTaken_eq_bits, Params.default]

/-! ### BR, JMP, JSR, JSRR -/

/-- BR writes the target or leaves `pc`, which is writing the value it has. -/
theorem exec_br (nzp : BitVec 3) (off9 : BitVec 9) (s : State) : exec (.br nzp off9) s =
    .next (s.setPc (if branchTaken nzp s.cond then s.pc + off9.signExtend 16 else s.pc)) := by
  rw [← sext_eq_signExtend off9 (by decide)]
  change Host.Outcome.next (if branchTaken nzp s.cond then _ else s) = _
  cases branchTaken nzp s.cond <;> rfl

theorem exec_jsr (off11 : BitVec 11) (s : State) : exec (.jsr off11) s =
    .next ((s.setReg .r7 s.pc).setPc (s.pc + off11.signExtend 16)) := by
  rw [← sext_eq_signExtend off11 (by decide)]; rfl

/-- JSRR reads the base after the link is written, so R7 reads as the link (R136). -/
theorem exec_jsrr (base : Reg) (s : State) : exec (.jsrr base) s =
    .next ((s.setReg .r7 s.pc).setPc (if base = .r7 then s.pc else s.reg base)) := by
  rw [← reg_setReg]; rfl

/-- Settles O15: the value written to `pc` is chosen by `branchTaken`, whose value each clause's `cond` fixes. -/
theorem branchTakenWhenFlagSelected : Obligations.BranchTakenWhenFlagSelected := by
  unfold Obligations.BranchTakenWhenFlagSelected
  intro nzp off9 s
  refine ⟨_, exec_br nzp off9 s, ?_, fun hc => ?_, fun hp => ?_⟩
  · rw [← branchTaken_eq_bits]
    exact onlyPc_setPc _ s
  · simp [hc, branchTaken_zero]
  · rw [hp]
    refine ⟨fun hc => ?_, fun hc => ?_, fun hc => ?_, fun hc => ?_⟩
    · rw [hc, branchTaken_flNeg, setPc_pc]
    · rw [hc, branchTaken_flZro, setPc_pc]
    · rw [hc, branchTaken_flPos, setPc_pc]
    · simp [hc, Params.default, branchTaken_zero]

/-- Settles O16: JMP writes the base register to `pc`. -/
theorem jumpToRegister : Obligations.JumpToRegister := by
  unfold Obligations.JumpToRegister
  exact fun base s => ⟨_, rfl, onlyPc_setPc (s.reg base) s⟩

/-- Settles O17: JSR writes the link, then the target. -/
theorem jsrLinksAndJumps : Obligations.JsrLinksAndJumps := by
  unfold Obligations.JsrLinksAndJumps
  exact fun off11 s => ⟨_, exec_jsr off11 s, linkedTo_setPc _ s⟩

/-- Settles O18: JSRR writes the link, then what the base reads as after it. -/
theorem jsrrLinksBeforeItReads : Obligations.JsrrLinksBeforeItReads := by
  unfold Obligations.JsrrLinksBeforeItReads
  exact fun base s => ⟨_, exec_jsrr base s, linkedTo_setPc _ s⟩

end Sys2Proof.Machine

/-! PROOFS, family 42_load: LD (O19), LDI (O20), LDR (O21) and LEA (O22). The first three are one load of DR
from an address (`loaded_loadFrom`), LDI in the state its pointer read leaves; LEA writes a result and reads
nothing. -/

namespace Sys2Proof.Machine

/-! ### A load through the memory interface (R51, R52) -/

section
variable (dr : Reg) {s : State}

/-- A load from an ordinary cell writes the cell's value to DR in the state as it is. -/
theorem loadFrom_of_ne {a : Word} (h : a ≠ s.params.kbsrAddr) :
    loadFrom dr a s = writeResult dr (s.cell a) s := by
  rw [loadFrom, memRead_of_ne h]

/-- A load from the status cell polls, then writes to DR what the poll left in the cell. -/
theorem loadFrom_kbsr (s : State) : loadFrom dr s.params.kbsrAddr s =
    writeResult dr ((poll s).cell s.params.kbsrAddr) (poll s) := by
  rw [loadFrom, memRead_kbsr rfl]

/-- A poll with no byte there changes the status cell and no other. -/
theorem sameCells_poll_empty (hq : (arrive s).inq = []) :
    SameCellsBut [s.params.kbsrAddr] s (poll s) := fun c hc => by
  rw [poll_empty hq, cell_setCell, if_neg (List.mem_singleton.not.mp hc), cell_arrive]

/-- Whatever its address, a load leaves the registers beside DR, `pc`, the output and the run. -/
theorem loadFrom_frame (a : Word) (s : State) :
    SameRegsBut [dr] s (loadFrom dr a s) ∧ (loadFrom dr a s).pc = s.pc ∧
    (loadFrom dr a s).out = s.out ∧ SameControl s (loadFrom dr a s) := by
  obtain ⟨_, _, regs, pc, _, ⟨_, out, _⟩, _, phase⟩ :=
    onlyResult_writeResult dr (memRead a s).1 (memRead a s).2
  exact ⟨fun r hr => (regs r hr).trans (afterRead_reg a s r), pc.trans (afterRead_pc a s),
    out.trans (afterRead_out a s), (proceeds_loadFrom s dr a).run, phase.trans (afterRead_phase a s)⟩

/-- A load does what `Loaded` says: a poll comes before the write of DR exactly when the address is the status
cell, and DR gets what the poll leaves there. -/
theorem loaded_loadFrom (a : Word) (hne : s.params.kbdrAddr ≠ s.params.kbsrAddr) :
    Loaded dr a s (loadFrom dr a s) := by
  obtain ⟨regs, pc, out, control⟩ := loadFrom_frame dr a s
  refine ⟨regs, pc, out, control, fun ha => ?ordinary, fun ha => ?status⟩
  case ordinary =>
    rw [loadFrom_of_ne dr ha]
    obtain ⟨value, cond, _, _, cells, host, _⟩ := onlyResult_writeResult dr (s.cell a) s
    exact ⟨value, cond, cells, host⟩
  case status =>
    subst ha
    rw [loadFrom_kbsr]
    obtain ⟨value, cond, _⟩ := onlyResult_writeResult dr ((poll s).cell s.params.kbsrAddr) (poll s)
    obtain ⟨_, _, _, cells, _, plan, ⟨params, _⟩, _⟩ := onlyDevice_poll s
    rw [arrive_params] at cells params
    rw [params] at cond
    have status := poll_kbsr hne
    refine ⟨plan, fun b rest hq => ?ready, fun hq => ?empty⟩
    case ready =>
      rw [if_neg (by simp [hq])] at status
      exact ⟨value.trans status, cond.trans (congrArg (classify s.params) status), status,
        poll_kbdr_ready hq, fun c hc => (cells c hc).trans (cell_arrive s c), poll_inq_ready hq⟩
    case empty =>
      rw [if_pos hq] at status
      exact ⟨value.trans status, cond.trans (congrArg (classify s.params) status), status,
        sameCells_poll_empty hq, poll_inq_empty hq⟩

end

/-! ### LD, LDI, LDR, LEA -/

theorem exec_lea (dr : Reg) (off9 : BitVec 9) (s : State) : exec (.lea dr off9) s =
    .next (writeResult dr (s.pc + off9.signExtend 16) s) := by
  rw [← sext_eq_signExtend off9 (by decide)]; rfl

/-- Settles O19: LD is a load from the PC-relative address. -/
theorem ldLoadsPcRelative : Obligations.LdLoadsPcRelative := by
  unfold Obligations.LdLoadsPcRelative
  exact fun dr off9 s ⟨_, _, _, hne, _⟩ => ⟨_, rfl, loaded_loadFrom dr (pcRelative off9 s) hne⟩

/-- Settles O20: LDI is a load from the pointer, in the state the pointer read leaves; that read keeps the
parameters, so the device cells are still two. -/
theorem ldiReadsPointerThenDatum : Obligations.LdiReadsPointerThenDatum := by
  unfold Obligations.LdiReadsPointerThenDatum
  intro dr off9 s ⟨_, _, _, hne, _⟩
  rw [← afterRead_params (pcRelative off9 s) s] at hne
  exact ⟨_, rfl, loaded_loadFrom dr (memRead (pcRelative off9 s) s).1 hne⟩

/-- Settles O21: LDR is a load from the base plus the offset, summed before DR is written. -/
theorem ldrLoadsBasePlusOffset : Obligations.LdrLoadsBasePlusOffset := by
  unfold Obligations.LdrLoadsBasePlusOffset
  exact fun dr base off6 s ⟨_, _, _, hne, _⟩ => ⟨_, rfl, loaded_loadFrom dr (basePlus base off6 s) hne⟩

/-- Settles O22: LEA writes the address itself as its result. -/
theorem leaComputesTheAddress : Obligations.LeaComputesTheAddress := by
  unfold Obligations.LeaComputesTheAddress
  exact fun dr off9 s => onlyResult_of_exec (exec_lea dr off9 s)

end Sys2Proof.Machine

/-! PROOFS, family 43_store: ST (O23), STI (O24) and STR (O25). Each is one `MemWrite`, whose frame is
`onlyCell_memWrite`; STI's comes after its pointer read, which leaves SR as it was. -/

namespace Sys2Proof.Machine

/-- The pointer read writes no register, so the value STI stores is SR's before it (R172). -/
theorem exec_sti (sr : Reg) (off9 : BitVec 9) (s : State) : exec (.sti sr off9) s =
    .next (memWrite (memRead (pcRelative off9 s) s).1 (s.reg sr) (memRead (pcRelative off9 s) s).2) := by
  rw [← afterRead_reg (pcRelative off9 s) s sr]; rfl

/-- Settles O23: ST is a store to the PC-relative address. -/
theorem stStoresPcRelative : Obligations.StStoresPcRelative := by
  unfold Obligations.StStoresPcRelative
  exact fun sr off9 s => ⟨_, rfl, onlyCell_memWrite (pcRelative off9 s) (s.reg sr) s⟩

/-- Settles O24: STI is a store through the pointer, in the state the pointer read leaves. -/
theorem stiReadsPointerThenStores : Obligations.StiReadsPointerThenStores := by
  unfold Obligations.StiReadsPointerThenStores
  exact fun sr off9 s => ⟨_, exec_sti sr off9 s, onlyCell_memWrite _ (s.reg sr) _⟩

/-- Settles O25: STR is a store to the base plus the offset. -/
theorem strStoresBasePlusOffset : Obligations.StrStoresBasePlusOffset := by
  unfold Obligations.StrStoresBasePlusOffset
  exact fun sr base off6 s => ⟨_, rfl, onlyCell_memWrite (basePlus base off6 s) (s.reg sr) s⟩

end Sys2Proof.Machine

/-! PROOFS, family 44_trap: PUTS (O28) and PUTSP (O30), the scan up to its first zero cell (`onlyOutput_runScan`);
GETC (O26) and IN (O29), their wait (O32) and its end (O33), all from `InputTrap.finish`, the one continuation
both traps share; OUT (O27), HALT (O31) and the unknown vector (O35). -/

namespace Sys2Proof.Machine

/-! ### Output (R194, R196, R200) -/

/-- Writing output changes the output history alone. -/
theorem onlyOutput_outWrite (bs : List Byte) (s : State) : OnlyOutput bs s (s.outWrite bs) :=
  ⟨rfl, fun _ _ => rfl, rfl, rfl, fun _ _ => rfl, rfl, rfl, rfl, rfl, rfl, rfl⟩

@[simp] theorem outWrite_nil (s : State) : s.outWrite [] = s := by
  simp [State.outWrite]

/-- A round of a string scan that meets a zero cell writes the bytes of the cells before the first one. -/
theorem onlyOutput_runScan (k : StringTrap) {a : Word} {s : State} {n : Nat} (hn : n < 65536)
    (hz : s.cell (a + BitVec.ofNat 16 n) = 0#16)
    (hnz : ∀ i < n, s.cell (a + BitVec.ofNat 16 i) ≠ 0#16) :
    (runScan k a s).phase = .boundary ∧
    OnlyOutput ((List.range n).flatMap (fun i => k.bytesOf (s.cell (a + BitVec.ofNat 16 i)))) s
      (runScan k a s) := by
  rw [runScan_terminated k a s hn hz hnz]
  exact ⟨rfl, onlyOutput_outWrite _ s⟩

/-- Settles O28: the scan of PUTS writes one byte for each cell. -/
theorem putsWritesLowBytesUpToZero : Obligations.PutsWritesLowBytesUpToZero := by
  unfold Obligations.PutsWritesLowBytesUpToZero
  intro s n hn hz hnz
  have written := onlyOutput_runScan .puts hn hz hnz
  simp only [bytesOf_puts, ← List.map_eq_flatMap] at written
  exact ⟨_, rfl, written⟩

/-- Settles O30: the scan of PUTSP writes one or two bytes for each cell. -/
theorem putspWritesPackedBytesUpToZero : Obligations.PutspWritesPackedBytesUpToZero := by
  unfold Obligations.PutspWritesPackedBytesUpToZero
  intro s n hn hz hnz
  have written := onlyOutput_runScan .putsp hn hz hnz
  simp only [bytesOf_putsp] at written
  exact ⟨_, rfl, written⟩

/-- Settles O27: the low byte of R0 is R0 modulo 256. -/
theorem outWritesLowByte : Obligations.OutWritesLowByte := by
  unfold Obligations.OutWritesLowByte
  intro s
  have low : BitVec.ofNat 8 ((s.reg .r0).toNat % 256) = (s.reg .r0).extractLsb' 0 8 :=
    BitVec.eq_of_toNat_eq (by simp)
  rw [low]
  exact ⟨_, rfl, onlyOutput_outWrite _ s, rfl⟩

/-! ### The input traps from their read on (R192, R198, R208) -/

/-- From `InRead()` to the end of an input trap. -/
def InputTrap.finish : InputTrap → State → State
  | .getc => finishGetc
  | .promptedIn => finishIn

/-- What an input trap echoes of the byte it has read: GETC nothing, IN the byte. -/
def InputTrap.echo : InputTrap → Byte → List Byte
  | .getc, _ => []
  | .promptedIn, c => [c]

section
variable (k : InputTrap) {s : State}

/-- Inside a blocked trap the core's turn goes on from the trap's read. -/
theorem coreTurn_input (hr : s.running = true) (hf : s.fault = none) (hp : s.phase = .input k) :
    coreTurn s = .next (k.finish s) := by
  cases k
  · exact coreTurn_getc hr hf hp
  · exact coreTurn_promptedIn hr hf hp

theorem InputTrap.proceeds_finish (s : State) : Proceeds s (k.finish s) := by
  cases k
  · exact proceeds_finishGetc s
  · exact proceeds_finishIn s

theorem InputTrap.finish_ready {c : Byte} {rest : List Byte} (h : (arrive s).inq = c :: rest) :
    k.finish s =
      (writeResult .r0 (zext8 c) (((arrive s).setInq rest).outWrite (k.echo c))).setPhase .boundary := by
  cases k
  · rw [InputTrap.echo, outWrite_nil]
    exact finishGetc_ready h
  · exact finishIn_ready h

theorem InputTrap.finish_blocked (h : (arrive s).inq = []) :
    k.finish s = (arrive s).setPhase (.input k) := by
  cases k
  · exact finishGetc_blocked h
  · exact finishIn_blocked h

/-- An input trap that has just written `bs` and finds no byte waits, and nothing else has happened. -/
theorem InputTrap.finish_outWrite_blocked (bs : List Byte) (h : (arrive s).inq = []) :
    (k.finish (s.outWrite bs)).phase = .input k ∧
    OnlyOutput bs (arrive s) (k.finish (s.outWrite bs)) := by
  have empty : (arrive (s.outWrite bs)).inq = [] := by rwa [arrive_outWrite]
  rw [k.finish_blocked empty, arrive_outWrite]
  exact ⟨rfl, onlyOutput_outWrite bs (arrive s)⟩

/-- A blocked trap that still finds no byte stays as it is, but for what arrived. -/
theorem InputTrap.finish_still_blocked (hp : s.phase = .input k) (h : (arrive s).inq = []) :
    k.finish s = arrive s := by
  rw [k.finish_blocked h, ← hp, ← arrive_phase s]
  rfl

end

/-- `t` follows `s` by an input trap that took the byte `c` into R0, left `rest` in the queue and echoed
`echoed`; the rest of the state is as it was. -/
structure ByteTaken (c : Byte) (rest echoed : List Byte) (s t : State) : Prop where
  value : t.reg .r0 = c.setWidth 16
  cond : t.cond = if c = 0#8 then s.params.flZro else s.params.flPos
  inq : t.inq = rest
  out : t.out = s.out ++ echoed
  phase : t.phase = .boundary
  regs : SameRegsBut [.r0] s t
  pc : t.pc = s.pc
  cells : SameCellsBut [] s t
  plan : t.plan = (arrive s).plan
  run : SameRun s t

/-- With a byte there an input trap is completed by it: a result in R0, on the state after the look. -/
theorem byteTaken_finish (k : InputTrap) {c : Byte} {rest : List Byte} {s : State}
    (h : (arrive s).inq = c :: rest) : ByteTaken c rest (k.echo c) s (k.finish s) := by
  have run := (k.proceeds_finish s).run
  obtain ⟨value, cond, regs, pc, cells, ⟨inq, out, plan⟩, _⟩ :=
    onlyResult_writeResult .r0 (zext8 c) (((arrive s).setInq rest).outWrite (k.echo c))
  rw [k.finish_ready h] at run ⊢
  refine ⟨value, cond.trans ?flags, inq, out.trans ?echo, rfl, fun r hr => (regs r hr).trans (reg_arrive s r),
    pc.trans (arrive_pc s), fun a ha => (cells a ha).trans (cell_arrive s a), plan, run⟩
  case flags => rw [classify_zext8, outWrite_params, setInq_params, arrive_params]
  case echo => rw [outWrite_out, setInq_out, arrive_out]

/-- Settles O26: GETC is its read on the state as it is, and echoes nothing. -/
theorem getcReadsOneByte : Obligations.GetcReadsOneByte := by
  unfold Obligations.GetcReadsOneByte
  intro s c rest h
  obtain ⟨value, cond, inq, out, phase, regs, pc, cells, plan, run⟩ := byteTaken_finish .getc h
  exact ⟨_, rfl, value, cond, inq, out.trans (List.append_nil _), phase, regs, pc, cells, plan, run⟩

/-- Settles O29: IN is its read on the state in which the prompt is written, and echoes the byte. -/
theorem inPromptsReadsAndEchoes : Obligations.InPromptsReadsAndEchoes := by
  unfold Obligations.InPromptsReadsAndEchoes
  intro s c rest h
  have prompted : (arrive (s.outWrite s.params.inPrompt)).inq = c :: rest := by rwa [arrive_outWrite]
  obtain ⟨value, cond, inq, out, phase, regs, pc, cells, plan, run⟩ :=
    byteTaken_finish .promptedIn prompted
  rw [arrive_outWrite] at plan
  exact ⟨_, rfl, value, cond, inq, out, phase, regs, pc, cells, plan, run⟩

/-- Settles O32: GETC reads at once and IN after its prompt, and with no byte there the trap waits; a core's turn
in the wait looks again and finds the state it left. -/
theorem inputTrapsBlockOnAnEmptyQueue : Obligations.InputTrapsBlockOnAnEmptyQueue := by
  unfold Obligations.InputTrapsBlockOnAnEmptyQueue
  refine ⟨fun s h => ⟨⟨_, rfl, ?getc⟩, ⟨_, rfl, ?promptedIn⟩⟩, fun s k later hr hf hp hturn h => ?waiting⟩
  case getc =>
    have blocked := InputTrap.getc.finish_outWrite_blocked [] h
    rwa [outWrite_nil] at blocked
  case promptedIn => exact InputTrap.promptedIn.finish_outWrite_blocked s.params.inPrompt h
  case waiting =>
    rw [step_of_coreTurn hturn, coreTurn_input (s := s.setPlan later) k hr hf hp,
      k.finish_still_blocked (s := s.setPlan later) hp h]

/-- Settles O33: the core's turn in the wait is the trap's read on the state it left, so IN does not prompt
again. -/
theorem blockedInputCompletes : Obligations.BlockedInputCompletes := by
  unfold Obligations.BlockedInputCompletes
  intro s k c rest later hr hf hp hturn h
  obtain ⟨value, cond, inq, out, phase, regs, pc, cells, plan, run⟩ := byteTaken_finish k h
  refine ⟨_, (step_of_coreTurn hturn).trans (coreTurn_input k hr hf hp), phase, value, cond, inq, ?echo,
    regs, pc, cells, plan, run⟩
  cases k with
  | getc => exact out.trans (List.append_nil _)
  | promptedIn => exact out

/-! ### The traps that end the run (R202, R204, R239) -/

/-- A run that is over with nothing recorded has halted. -/
theorem runEnd_halted {s : State} (hr : s.running = false) (hf : s.fault = none)
    (hs : s.stopped = false) : s.runEnd = some .halted := by
  simp [State.runEnd, hr, hf, hs]

theorem runEnd_raiseFatal (f : Fatal) (s : State) : (raiseFatal f s).runEnd = some (.fatal f) := rfl

/-- Settles O31: HALT writes output and clears `running`, so the end is a halt where no other is recorded. -/
theorem haltEndsTheRun : Obligations.HaltEndsTheRun := by
  unfold Obligations.HaltEndsTheRun
  intro s
  exact ⟨_, rfl, rfl, rfl, fun _ _ => rfl, rfl, rfl, fun _ _ => rfl, rfl, rfl, rfl, rfl, rfl, rfl,
    runEnd_halted (s := (s.outWrite s.params.haltNotice).setRunning false) rfl⟩

/-- Settles O35: an unknown vector raises its fatal condition and does nothing else. -/
theorem unknownVectorIsFatal : Obligations.UnknownVectorIsFatal := by
  unfold Obligations.UnknownVectorIsFatal
  intro vec s
  exact ⟨_, rfl, rfl, rfl, fun _ _ => rfl, rfl, rfl, fun _ _ => rfl, ⟨rfl, rfl, rfl⟩, rfl, rfl, rfl,
    runEnd_raiseFatal _ s⟩

end Sys2Proof.Machine

/-! PROOFS, family 45_reserved: the reserved opcodes raise their fatal condition, and what they record is the word
fetched (O36). -/

namespace Sys2Proof

/-- A word is its opcode (R81) and its low twelve bits. -/
theorem fieldOpcode_append_fieldLow12 (w : Word) : fieldOpcode w ++ fieldLow12 w = w := by
  calc fieldOpcode w ++ fieldLow12 w
    _ = w.extractLsb' 0 16 := BitVec.extractLsb'_append_extractLsb'_eq_extractLsb' rfl
    _ = w := BitVec.extractLsb'_eq_self

end Sys2Proof

namespace Sys2Proof.Machine

/-- Settles O36: running either instruction raises its fatal condition and does nothing else, and the decoder keeps
the low twelve bits of a reserved word, which with its opcode are the whole word. -/
theorem reservedOpcodesAreFatal : Obligations.ReservedOpcodesAreFatal := by
  unfold Obligations.ReservedOpcodesAreFatal
  refine ⟨fun low s => ⟨rfl, rfl⟩, fun p w ⟨hnodup, _⟩ => ⟨fun rsvA => ?_, fun rsvB => ?_⟩⟩
  · exact ⟨_, decode_rsvA hnodup rsvA, rsvA ▸ fieldOpcode_append_fieldLow12 w⟩
  · exact ⟨_, decode_rsvB hnodup rsvB, rsvB ▸ fieldOpcode_append_fieldLow12 w⟩

end Sys2Proof.Machine

/-! PROOFS, family 60_exceptions: the host's stop, between two steps of a run and elsewhere (O47). -/

namespace Sys2Proof.Machine

/-! ### The host's stop (R208, R239, R240) -/

theorem step_of_stop {s : State} {rest : List Turn} (h : s.plan = .stop :: rest) :
    step s = .next (hostStop (s.setPlan rest)) := by
  simp [step, takeTurn, h]

theorem hostStop_of_between {s : State} (h : s.running = true ∧ s.phase = .boundary) :
    hostStop s = { s with running := false, stopped := true } := if_pos h

theorem hostStop_of_not_between {s : State} (h : ¬(s.running = true ∧ s.phase = .boundary)) :
    hostStop s = s := if_neg h

/-- Settles O47: the stop turn is the host's stop on the state in which that turn is used up, and whether the run
stands between two steps there is as before it. -/
theorem hostStopTurn : Obligations.HostStopTurn := by
  unfold Obligations.HostStopTurn
  intro s rest hplan
  rw [step_of_stop hplan]
  refine ⟨fun between => ?_, fun notBetween => ?_⟩
  · rw [hostStop_of_between (s := s.setPlan rest) between]
    rfl
  · rw [hostStop_of_not_between (s := s.setPlan rest) notBetween]
    rfl

end Sys2Proof.Machine

/-! PROOFS, family 70_reset_and_hazards: string scans that never end (O34), the loader (O58, O59), the start of a run
(O60) and a fetch from the status cell (O44). -/

namespace Sys2Proof.Machine

/-! ### A string scan with no zero cell (R196, R200, R274) -/

/-- A string trap writes at least one byte for each cell it scans. -/
theorem one_le_length_bytesOf (k : StringTrap) (v : Word) : 1 ≤ (k.bytesOf v).length := by
  cases k
  · simp [bytesOf_puts]
  · simp [bytesOf_putsp]

/-- The bytes of some cells are at least as many as the cells. -/
theorem length_le_length_flatMap_bytesOf (k : StringTrap) (cellAt : Nat → Word) (is : List Nat) :
    is.length ≤ (is.flatMap fun i => k.bytesOf (cellAt i)).length := by
  rw [List.length_flatMap, ← List.length_map (as := is) fun i => (k.bytesOf (cellAt i)).length]
  exact List.length_le_sum_of_one_le _ (by simp [one_le_length_bytesOf])

/-- A round of a scan with no zero cell in memory writes a byte or more for every cell, stands where it began and
leaves all else. -/
theorem onlyOutput_runScan_endless (k : StringTrap) (a : Word) {s : State} (hnz : ∀ b, s.cell b ≠ 0#16) :
    (runScan k a s).phase = .scan k a ∧
    ∃ bs, 65536 ≤ bs.length ∧ OnlyOutput bs s (runScan k a s) := by
  have enough := length_le_length_flatMap_bytesOf k (fun i => s.cell (a + BitVec.ofNat 16 i))
    (List.range Config.memSize)
  rw [List.length_range] at enough
  rw [runScan_endless k a s hnz]
  exact ⟨rfl, _, enough, onlyOutput_outWrite _ s⟩

/-- Settles O34: PUTS and PUTSP run a round of the scan from R0, and a core's turn inside a scan runs the next
round. -/
theorem stringScanWithoutZeroNeverEnds : Obligations.StringScanWithoutZeroNeverEnds := by
  unfold Obligations.StringScanWithoutZeroNeverEnds
  intro s hnz
  have started (k : StringTrap) : (runScan k (s.reg .r0) s).phase = .scan k (s.reg .r0) ∧
      SameCellsBut [] s (runScan k (s.reg .r0) s) := by
    obtain ⟨phase, _, _, _, _, _, _, cells, _⟩ := onlyOutput_runScan_endless k (s.reg .r0) hnz
    exact ⟨phase, cells⟩
  refine ⟨⟨_, rfl, started .puts⟩, ⟨_, rfl, started .putsp⟩, fun k a later hr hf hp hturn => ?_⟩
  obtain ⟨phase, bs, enough, written⟩ := onlyOutput_runScan_endless k a (s := s.setPlan later) hnz
  have plan : (runScan k a (s.setPlan later)).plan = later := by
    obtain ⟨_, _, _, _, _, _, plan, _⟩ := written
    exact plan
  exact ⟨_, bs, (step_of_coreTurn hturn).trans (coreTurn_scan hr hf hp), phase, plan, enough, written⟩

/-! ### The loader (R265 to R267) -/

/-- The word of two bytes, the first in bits 15 to 8, as a number. -/
theorem toNat_append_bytes (hi lo : Byte) : (hi ++ lo : Word).toNat = hi.toNat * 256 + lo.toNat := by
  rw [BitVec.toNat_append, ← Nat.shiftLeft_add_eq_or_of_lt lo.isLt, Nat.shiftLeft_eq]

/-- An image has as many words as it has whole pairs of bytes (R267). -/
theorem length_imageWords (bs : List Byte) : (imageWords bs).length = bs.length / 2 := by
  induction bs using imageWords.induct with
  | case1 hi lo rest ih =>
    rw [imageWords, List.length_cons, ih, List.length_cons, List.length_cons]
    omega
  | case2 b => simp [imageWords]
  | case3 => rfl

/-- Word `k` of an image is made of its bytes `2 * k` and `2 * k + 1`. -/
theorem getElem_imageWords (bs : List Byte) {k : Nat} (hk : k < (imageWords bs).length) :
    (imageWords bs)[k] = bs.getD (2 * k) 0#8 ++ bs.getD (2 * k + 1) 0#8 := by
  induction bs using imageWords.induct generalizing k with
  | case1 hi lo rest ih =>
    cases k with
    | zero => rfl
    | succ k => exact ih (Nat.lt_of_succ_lt_succ hk)
  | case2 b => cases hk
  | case3 => cases hk

/-- The words of an image that lie in the address space when it is loaded at `origin` (R266). -/
def keptWords (bs : List Byte) (origin : Nat) : List Word :=
  (imageWords bs).take (Config.memSize - origin)

theorem length_keptWords (bs : List Byte) (origin : Nat) :
    (keptWords bs origin).length = min (bs.length / 2) (65536 - origin) := by
  rw [keptWords, List.length_take, length_imageWords, Nat.min_comm, Config.memSize]

theorem getElem_keptWords (bs : List Byte) (origin : Nat) {k : Nat}
    (hk : k < (keptWords bs origin).length) :
    (keptWords bs origin)[k] = bs.getD (2 * k) 0#8 ++ bs.getD (2 * k + 1) 0#8 := by
  rw [← getElem_imageWords bs (hk.trans_le (List.length_take_le' ..))]
  exact List.getElem_take

section
variable {bs : List Byte} {origin : Nat} (m : Memory)

/-- A cell that a kept word is stored to. -/
theorem readCell_keptWords_inside {k : Nat} (hk : k < min (bs.length / 2) (65536 - origin)) :
    (storeWords (keptWords bs origin) origin m).readCell (origin + k) =
      bs.getD (2 * k) 0#8 ++ bs.getD (2 * k + 1) 0#8 := by
  rw [← length_keptWords] at hk
  rw [readCell_storeWords, dif_pos ⟨Nat.le_add_right origin k, Nat.add_lt_add_left hk origin⟩]
  simp only [Nat.add_sub_cancel_left, getElem_keptWords]

/-- A cell below the origin or above the last kept word. -/
theorem readCell_keptWords_outside {c : Nat}
    (hc : c < origin ∨ origin + min (bs.length / 2) (65536 - origin) ≤ c) :
    (storeWords (keptWords bs origin) origin m).readCell c = m.readCell c := by
  rw [← length_keptWords] at hc
  rw [readCell_storeWords, dif_neg (by omega)]

end

/-- Loading stores the kept words from the origin on (R265). -/
theorem load_eq (hi lo : Byte) (rest : List Byte) (s : State) : load (hi :: lo :: rest) s =
    some { s with mem := storeWords (keptWords rest (hi.toNat * 256 + lo.toNat))
                    (hi.toNat * 256 + lo.toNat) s.mem } := by
  rw [← toNat_append_bytes]; rfl

/-- Settles O58: the cells are those of the kept words stored from the origin on. -/
theorem loadStoresTheImage : Obligations.LoadStoresTheImage := by
  unfold Obligations.LoadStoresTheImage
  intro hi lo rest s
  refine ⟨_, load_eq hi lo rest s, fun k hk => ?stored, fun a ha => ?others, fun _ _ => rfl, rfl, rfl,
    ⟨rfl, rfl, rfl⟩, ⟨rfl, rfl, rfl, rfl⟩, rfl⟩
  case stored =>
    have address : (BitVec.ofNat 16 (hi.toNat * 256 + lo.toNat + k)).toNat = hi.toNat * 256 + lo.toNat + k :=
      (BitVec.toNat_ofNat ..).trans (Nat.mod_eq_of_lt (by omega))
    rw [State.cell, address, readCell_keptWords_inside _ hk, ← toNat_append_bytes, BitVec.ofNat_toNat,
      BitVec.setWidth_eq]
  case others => exact readCell_keptWords_outside _ ha

/-- Settles O59: the two short images are the two that `load` answers with none. -/
theorem shortImageFailsToLoad : Obligations.ShortImageFailsToLoad := by
  unfold Obligations.ShortImageFailsToLoad
  exact fun _ => ⟨rfl, fun _ => rfl⟩

/-! ### The start of a run (R261, R262) -/

/-- Loading images changes memory and nothing else, whatever their origins. -/
theorem loadAll_frame {images : List (List Byte)} {s t : State} (h : loadAll images s = some t) :
    t = { s with mem := t.mem } := by
  induction images generalizing s with
  | nil =>
    cases h
    rfl
  | cons image rest ih =>
    obtain ⟨u, first, others⟩ := Option.bind_eq_some_iff.mp h
    calc t
      _ = { u with mem := t.mem } := ih others
      _ = { s with mem := t.mem } := by rw [load_frame first]

/-- A run begins as reset leaves the machine, but for what was loaded and what the host brings. -/
theorem boot_eq {p : Params} {images : List (List Byte)} {inq : List Byte} {plan : List Turn} {s : State}
    (h : State.boot p images inq plan = some s) :
    s = { State.resetWith p with mem := s.mem, inq := inq, plan := plan } := by
  obtain ⟨t, loaded, rfl⟩ := Option.map_eq_some_iff.mp h
  rw [loadAll_frame loaded]
  rfl

/-- Settles O60: the images leave `pc` and the records as reset gives them, and a fetch reads at `pc`. -/
theorem runBeginsAtEntryAddress : Obligations.RunBeginsAtEntryAddress := by
  unfold Obligations.RunBeginsAtEntryAddress
  intro p images inq plan s h
  have booted := boot_eq h
  have pc : s.pc = 0x3000#16 := by rw [booted]; rfl
  have params : s.params = p := by rw [booted]; rfl
  have ready : s.Ready := by rw [booted]; exact ⟨rfl, rfl, rfl⟩
  have fetched : (fetch s).1 = (memRead 0x3000#16 s).1 := by rw [← pc]; rfl
  refine ⟨pc, ready, params, fetched, fun hne => ?_⟩
  rw [fetched, memRead_of_ne (by rw [params]; exact hne.symm)]

/-! ### A fetch from the status cell (R271) -/

/-- A fetch from the status cell polls, and the step runs what the poll left there. -/
theorem step_of_pc_kbsr {s : State} {later : List Turn} (hs : s.Ready) (ht : CoreTurn s later)
    (hpc : s.pc = s.params.kbsrAddr) :
    step s = exec (decode s.params ((poll (s.setPlan later)).cell s.params.kbsrAddr))
      ((poll (s.setPlan later)).setPc (s.pc + 1#16)) := by
  rw [step_of_ready hs ht, memRead_kbsr (s := s.setPlan later) hpc]
  rfl

/-- Running reserved opcode A records its number and its low twelve bits (R220). -/
theorem exec_reservedA {p : Params} (low : BitVec 12) {s : State} (hs : s.params = p) :
    exec (.reservedA low) s = .next (raiseFatal (.illegalOpcode (p.opcRsvA ++ low)) s) := by
  rw [← hs]; rfl

/-- A BR that selects no flag only lets the run go on (R130). -/
theorem exec_br_none (off9 : BitVec 9) (s : State) : exec (.br 0#3 off9) s = .next s := by
  have notTaken : branchTaken 0#3 s.cond = false := by simp [branchTaken]
  rw [exec_br, notTaken]
  rfl

/-- A poll changes the two device cells, the queue and the plan, and nothing else (R52). -/
theorem poll_frame (s : State) :
    SameRegsBut [] s (poll s) ∧ (poll s).cond = s.cond ∧ (poll s).out = s.out ∧
    SameCellsBut [s.params.kbsrAddr, s.params.kbdrAddr] s (poll s) ∧ (poll s).plan = (arrive s).plan ∧
    SameControl s (poll s) := by
  have cells : SameCellsBut [s.params.kbsrAddr, s.params.kbdrAddr] s (poll s) := fun c hc => by
    obtain ⟨hstatus, hdata⟩ : c ≠ s.params.kbsrAddr ∧ c ≠ s.params.kbdrAddr := by simpa using hc
    rw [← afterRead_kbsr, afterRead_cell_of_ne _ s hstatus hdata]
  rw [← afterRead_kbsr] at cells ⊢
  exact ⟨fun r _ => afterRead_reg _ s r, afterRead_cond _ s, afterRead_out _ s, cells,
    (afterRead_plan _ s).trans (if_pos rfl),
    ⟨afterRead_params _ s, afterRead_running _ s, afterRead_fault _ s, afterRead_stopped _ s⟩,
    afterRead_phase _ s⟩

/-- Settles O44: the step runs what the poll of the fetch left in the status cell, in the state that the poll left
with `pc` advanced. -/
theorem fetchAtStatusCellPolls : Obligations.FetchAtStatusCellPolls := by
  unfold Obligations.FetchAtStatusCellPolls
  intro s later ⟨_, _, _, hne, _⟩ hs hturn hpc
  have runs := step_of_pc_kbsr hs hturn hpc
  have status : (poll (s.setPlan later)).cell s.params.kbsrAddr =
      if (arrive (s.setPlan later)).inq = [] then 0#16 else kbsrReady :=
    poll_kbsr (s := s.setPlan later) hne
  rw [status] at runs
  obtain ⟨regs, cond, out, cells, plan, control⟩ := poll_frame (s.setPlan later)
  have ⟨⟨params, _⟩, _⟩ := control
  refine ⟨fun b rest hq => ?ready, fun hq => ?empty, fun hp => ?default⟩
  case ready =>
    rw [if_neg (by simp [hq])] at status runs
    refine ⟨_, runs, rfl, status, poll_kbdr_ready hq, poll_inq_ready hq, cells, regs, cond, out, plan, control,
      fun fatal => ?_⟩
    exact (runs.trans (congrArg (exec · _) fatal)).trans (exec_reservedA 0#12 params)
  case empty =>
    rw [if_pos hq] at status runs
    refine ⟨_, runs, rfl, status, sameCells_poll_empty hq, regs, cond,
      ⟨(poll_inq_empty hq).trans hq.symm, out.trans (arrive_out _).symm, plan⟩, control, fun noop => ?_⟩
    rw [runs, noop, exec_br_none]
  case default =>
    rw [hp]
    decide

end Sys2Proof.Machine
